-- ==== Sys2Proof/Word.lean ====
section
/-! DEFINITION. Bytes, frames and the plain data types the syntax is written with: the record (R51), the event kinds (R45),
the formats (R39), the lines of the trace notation (R48, R49), and the reasons the decoder rejects bytes. -/

namespace Sys2Proof

/-- A byte: 8 bits, bit 0 of weight 1 (R6, R10). -/
abbrev Byte := BitVec 8

/-- The frame vector FR128: byte i of the stream at bits 8i+7 to 8i (R40). -/
abbrev Frame := BitVec 128

/-- A binary32 bit pattern, carried and never interpreted (R63). -/
abbrev Pattern32 := BitVec 32

/-- The Telemetry Record (R51): six bit vectors; equality is equality of all six, bit for bit. -/
structure Record where
  deviceId    : BitVec 8
  sequenceNum : BitVec 16
  timestamp   : BitVec 32
  temperature : Pattern32
  humidity    : Pattern32
  status      : BitVec 8
  deriving DecidableEq, Repr

/-- The event kinds of EV10 (R45), in the order of their codes 0 to 3. -/
inductive EventKind where
  | data
  | eos
  | ioerr
  | openConn
  deriving DecidableEq, Repr

/-- What a reader of a frame applies to it: the whole of `Decode`, or one of the six extractors (R39, R52 to R58). -/
inductive View where
  | whole
  | deviceId
  | sequenceNum
  | timestamp
  | temperature
  | humidity
  | status
  deriving DecidableEq, Repr

/-- The two formats (R39). A frame has no opcode bits: what is applied to it is named beside it. -/
inductive Format where
  | ev10
  | fr128 (v : View)
  deriving DecidableEq, Repr

/-- Why bytes are not an instruction. -/
inductive Reject where
  /-- Fewer bytes than the format has. -/
  | tooFewBytes (found : Nat)
  /-- A two-byte cell with a bit above the ten of an event word (R44). -/
  | eventWordTooWide
  deriving DecidableEq, Repr

/-- The steps of one instance (R9, R71): these six and no other. -/
inductive Basic where
  | openConn
  | data (b : Byte)
  | eos
  | ioerr
  | close (cf : Bool)
  | reset
  deriving DecidableEq, Repr

/-- A line of the trace notation (R48) inside one connection, pseudo-instructions READ, FRAME and RECORD included (R49). -/
inductive Line where
  | step (b : Basic)
  | read (bytes : List Byte)
  | frame (bytes : List Byte)
  | record (r : Record)
  deriving DecidableEq, Repr

/-- A line of a whole trace, which may be several instances' (R48): a line as inside a connection, or a CONN with the lines
under it (R49). A CONN is one connection, so it holds no CONN. -/
inductive TraceLine where
  | line (l : Line)
  | conn (lines : List Line)
  deriving DecidableEq, Repr

end Sys2Proof
end

