-- ==== Sys2Proof/Config.lean ====
section
/-! DEFINITION. What is fixed for one machine (R6, R7, R8) and the free value the spec leaves to the environment (R70). -/

namespace Sys2Proof

/-- FRAME_LEN: bytes in a frame, a constant of the hardware (R6). -/
def Config.frameLen : Nat := 16

/-- How many instances there are beyond the first.
NO BODY: the spec leaves NCHAN open (R7, D18), so nothing can be proved of its value. Log entry 1, safe. -/
opaque Config.moreInstances : Nat

/-- NCHAN, at least 1 (R7). -/
def Config.nchan : Nat := Config.moreInstances + 1

/-- The n-th result of a close operation that no stimulus gives: a free draw (R70, R101, 93 U10).
NO BODY: nothing can be proved of its values. Log entry 4, safe. -/
opaque Config.closeFail : Nat → Bool

end Sys2Proof
end

