-- ==== Sys2Proof/Syntax.lean ====
section
/-! DEFINITION. The instruction set: one constructor per row of spec/opcode_table.json, in the table's order. -/

namespace Sys2Proof

/-- The instructions (R39, R49).
The bytes of READ, FRAME and DECODE are lists, so that a wrong length can be said and is caught
(WellFormed.lean, R82); the extractors take the frame vector of R53 to R58. -/
inductive Instr where
  /-- DATA b: one received byte (R67). -/
  | data (b : Byte)
  /-- EOS: the peer closed in an orderly way (R68). -/
  | eos
  /-- IOERR: a read failed (R69). -/
  | ioerr
  /-- OPEN: a connection was given to this instance (R66). -/
  | openConn
  /-- CLOSE: the internal step, with the drawn result of the close operation (R70). -/
  | close (cf : Bool)
  /-- RESET: rst = 1 at a rising edge (R94). -/
  | reset
  /-- Decode: the Frame Decoder on a buffer (R52). -/
  | decode (bytes : List Byte)
  /-- FLD.deviceId (R53). -/
  | fldDeviceId (f : Frame)
  /-- FLD.sequenceNum (R54). -/
  | fldSequenceNum (f : Frame)
  /-- FLD.timestamp (R55). -/
  | fldTimestamp (f : Frame)
  /-- FLD.temperature (R56). -/
  | fldTemperature (f : Frame)
  /-- FLD.humidity (R57). -/
  | fldHumidity (f : Frame)
  /-- FLD.status (R58). -/
  | fldStatus (f : Frame)
  /-- READ b0 ... b(k-1), 1 ≤ k ≤ 16 (R49). -/
  | read (bytes : List Byte)
  /-- FRAME b0 ... b15 (R49). -/
  | frame (bytes : List Byte)
  /-- RECORD dev seq ts tmp hum sta (R49). -/
  | record (r : Record)
  /-- CONN and its lines (R49). -/
  | conn (lines : List Line)
  deriving DecidableEq, Repr

end Sys2Proof
end

