-- ==== Sys2Proof/WellFormed.lean ====
section
/-! DEFINITION. Which terms of the syntax are instructions of the spec: the lengths of R49 and R52. -/

namespace Sys2Proof

/-- READ takes 1 to 16 bytes (R49). -/
def readLengthOk (bytes : List Byte) : Bool :=
  decide (1 ≤ bytes.length) && decide (bytes.length ≤ Config.frameLen)

/-- FRAME and Decode take exactly 16 bytes (R49, R52). -/
def frameLengthOk (bytes : List Byte) : Bool :=
  decide (bytes.length = Config.frameLen)

/-- A line of a CONN: its READ and FRAME have their lengths. -/
def Line.wf : Line → Bool
  | .step _ => true
  | .read bytes => readLengthOk bytes
  | .frame bytes => frameLengthOk bytes
  | .record _ => true

/-- A line of a whole trace: the lengths of its lines. -/
def TraceLine.wf : TraceLine → Bool
  | .line l => l.wf
  | .conn lines => lines.all Line.wf

/-- A well-formed instruction. -/
def Instr.wf : Instr → Bool
  | .data _ => true
  | .eos => true
  | .ioerr => true
  | .openConn => true
  | .close _ => true
  | .reset => true
  | .decode bytes => frameLengthOk bytes
  | .fldDeviceId _ => true
  | .fldSequenceNum _ => true
  | .fldTimestamp _ => true
  | .fldTemperature _ => true
  | .fldHumidity _ => true
  | .fldStatus _ => true
  | .read bytes => readLengthOk bytes
  | .frame bytes => frameLengthOk bytes
  | .record _ => true
  | .conn lines => lines.all Line.wf

end Sys2Proof
end

