-- ==== Sys2Proof/Decode.lean ====
section
/-! DEFINITION. The two formats (30_encoding.md): event words EV10 and frames FR128, as bytes; the decoder, total and
rejecting by name, the encoder, and decodeTableWord. -/

namespace Sys2Proof

/-- The kind codes (R45). -/
def kindCode : EventKind → BitVec 2
  | .data => 0b00#2
  | .eos => 0b01#2
  | .ioerr => 0b10#2
  | .openConn => 0b11#2

/-- The kind a code names; the four codes are all there are (R45). -/
def kindOfCode (k : BitVec 2) : EventKind :=
  if k = 0b00#2 then .data else if k = 0b01#2 then .eos else if k = 0b10#2 then .ioerr else .openConn

/-- The event of a word `ev = (kind, data)`: total, the data of a non-DATA word ignored (R44 to R46). -/
def eventInstr (kind : BitVec 2) (data : Byte) : Instr :=
  match kindOfCode kind with
  | .data => .data data
  | .eos => .eos
  | .ioerr => .ioerr
  | .openConn => .openConn

/-- Byte i of a frame vector: bits 8i+7 to 8i (R40). -/
def frameByte (f : Frame) (i : Nat) : Byte := f.extractLsb' (8 * i) 8

/-- The 16 bytes of a frame vector, offset 0 first (R40). -/
def bytesOfFrame (f : Frame) : List Byte :=
  (List.range Config.frameLen).map (frameByte f)

/-- The little-endian vector of some bytes: the first is the least significant (R29, R40). -/
def packBytes : (bytes : List Byte) → BitVec (8 * bytes.length)
  | [] => 0#0
  | b :: bs => packBytes bs ++ b

/-- The frame vector of 16 bytes (R40). -/
def frameOfBytes (bytes : List Byte) : Frame := (packBytes bytes).setWidth 128

/-- What a reader applies to a frame (R39): Decode, or one extractor. -/
def viewInstr (v : View) (f : Frame) : Instr :=
  match v with
  | .whole => .decode (bytesOfFrame f)
  | .deviceId => .fldDeviceId f
  | .sequenceNum => .fldSequenceNum f
  | .timestamp => .fldTimestamp f
  | .temperature => .fldTemperature f
  | .humidity => .fldHumidity f
  | .status => .fldStatus f

/-- How many bytes a format's word takes: the ten bits of an event word lie in two bytes, data byte first
(log entry 6); a frame is 16 bytes (R47). -/
def formatBytes : Format → Nat
  | .ev10 => 2
  | .fr128 _ => Config.frameLen

/-- The decoder: the instruction at the front of the bytes and the bytes after it, or a rejection by name. -/
def decode : Format → List Byte → Except Reject (Instr × List Byte)
  | .ev10, lo :: hi :: rest =>
    if hi.toNat < 4 then .ok (eventInstr (hi.setWidth 2) lo, rest) else .error .eventWordTooWide
  | .ev10, [_] => .error (.tooFewBytes 1)
  | .ev10, [] => .error (.tooFewBytes 0)
  | .fr128 v, bytes =>
    if Config.frameLen ≤ bytes.length then
      .ok (viewInstr v (frameOfBytes (bytes.take Config.frameLen)), bytes.drop Config.frameLen)
    else .error (.tooFewBytes bytes.length)

/-- The two bytes of an event word: the data byte, then the kind in bits 1 and 0 (R44, log entry 6). -/
def eventBytes (kind : EventKind) (data : Byte) : List Byte :=
  [data, (kindCode kind).setWidth 8]

/-- The encoder. CLOSE, RESET and the pseudo-instructions have no encoding (R39, R49). The canonical data of a
non-DATA event is 0x00 (R45). -/
def encode : Instr → Option (Format × List Byte)
  | .data b => some (.ev10, eventBytes .data b)
  | .eos => some (.ev10, eventBytes .eos 0x00#8)
  | .ioerr => some (.ev10, eventBytes .ioerr 0x00#8)
  | .openConn => some (.ev10, eventBytes .openConn 0x00#8)
  | .close _ => none
  | .reset => none
  | .decode bytes => some (.fr128 .whole, bytes)
  | .fldDeviceId f => some (.fr128 .deviceId, bytesOfFrame f)
  | .fldSequenceNum f => some (.fr128 .sequenceNum, bytesOfFrame f)
  | .fldTimestamp f => some (.fr128 .timestamp, bytesOfFrame f)
  | .fldTemperature f => some (.fr128 .temperature, bytesOfFrame f)
  | .fldHumidity f => some (.fr128 .humidity, bytesOfFrame f)
  | .fldStatus f => some (.fr128 .status, bytesOfFrame f)
  | .read _ => none
  | .frame _ => none
  | .record _ => none
  | .conn _ => none

/-- The low `n` bytes of a number, least significant first. -/
def numberBytes : Nat → Nat → List Byte
  | 0, _ => []
  | n + 1, w => BitVec.ofNat 8 w :: numberBytes n (w / 256)

/-- The format a row of the opcode table is read in, from how many bits the table gives it (log entry 7).
Ten bits, in whole bytes 16, are an event word. A frame row's bits end with its highest field: all 128 for Decode (and for
FLD.status, whose slice is the top one and which no bit tells from Decode, R39), fewer for the five other extractors. -/
def formatOfWidth (nbits : Nat) : Option Format :=
  if nbits = 10 then some .ev10
  else if nbits = 16 then some .ev10
  else if nbits = 8 then some (.fr128 .deviceId)
  else if nbits = 24 then some (.fr128 .sequenceNum)
  else if nbits = 56 then some (.fr128 .timestamp)
  else if nbits = 88 then some (.fr128 .temperature)
  else if nbits = 120 then some (.fr128 .humidity)
  else if nbits = 128 then some (.fr128 .whole)
  else none

/-- The instruction the decoder reads from the bits `w` of a table row of `nbits` bits, every further bit 0. -/
def decodeTableWord (nbits w : Nat) : Option Instr :=
  match formatOfWidth nbits with
  | none => none
  | some fmt =>
    if w < 2 ^ nbits then
      match decode fmt (numberBytes (formatBytes fmt) w) with
      | .ok (i, _) => some i
      | .error _ => none
    else none

end Sys2Proof
end

