-- ==== Sys2Proof/Machine/State.lean ====
section
/-! DEFINITION. The state: NCHAN instances of the four pieces of state of R14, and the model's own fields for what the
environment does and reads; the reasons a step can stop; the state after reset (R25). Plain data throughout. -/

namespace Sys2Proof.Machine

/-- The frame offset space (R27) as cells (offset, byte) in one canonical form: offsets strictly rising, all below 16, and
no byte 0x00, which is what an unlisted offset reads as (R25). -/
abbrev Memory := List Host.Cell

/-- The phase `st` (R17): five values and no more (92 D26). -/
inductive Phase where
  | closed
  | awaiting
  | decoded
  | shortRead
  | ioError
  deriving DecidableEq, Repr

/-- One instance: exactly the four pieces of state of R14. -/
structure Inst where
  /-- The accumulator bytes (R15). -/
  buf : Memory
  /-- The count of bytes collected, 0 to 16 (R16). -/
  cnt : Fin 17
  /-- The phase (R17). -/
  st : Phase
  /-- The flag close_err (R18). -/
  closeErr : Bool
  deriving DecidableEq, Repr

/-- The values of an instance's input pins at one rising edge of its clock (R19). -/
structure Pins where
  rst       : Bool
  inValid   : Bool
  inKind    : BitVec 2
  inData    : Byte
  closeFail : Bool
  deriving DecidableEq, Repr

/-- One thing the environment does (70_reset_and_hazards.md R96, R105). Log entry 3. -/
inductive Stim where
  /-- A rising edge of instance `ch`'s clock with these pin values. -/
  | edge (ch : Nat) (pins : Pins)
  /-- A reader applies `Decode` or one extractor to a frame (R52 to R58): no step of any instance. -/
  | view (v : View) (f : Frame)
  deriving DecidableEq, Repr

/-- What evaluating `Decode` or an extractor gives (R52 to R58). -/
inductive Reading where
  | record (r : Record)
  | deviceId (v : BitVec 8)
  | sequenceNum (v : BitVec 16)
  | timestamp (v : BitVec 32)
  | temperature (v : Pattern32)
  | humidity (v : Pattern32)
  | status (v : BitVec 8)
  deriving DecidableEq, Repr

/-- The machine. Only `insts` is the spec's state; the other fields are the model's own (log entries 2 to 5). -/
structure State where
  /-- The instances, index k = 0 .. NCHAN − 1 (R7, R26, R91). -/
  insts : List Inst
  /-- Which instance the current step concerns: the `ch<k>:` of R48. -/
  ch : Nat
  /-- What the environment does next, earliest first; empty: it stays silent for ever (R99). -/
  sched : List Stim
  /-- How many close results were drawn with no stimulus giving them (R70). -/
  draws : Nat
  /-- The latest value a Decode or FLD instruction evaluated to (R52 to R58). -/
  result : Option Reading
  deriving DecidableEq, Repr

/-- The exceptions the block records (R78). -/
inductive Exn where
  | shortRead
  | ioError
  | closeFailure
  deriving DecidableEq, Repr

/-- What stops the machine. -/
inductive Fault where
  /-- `Decode` on a buffer of other than 16 bytes (R82).
  Raised by execDecode alone; no step reaches it; safe. -/
  | decodeContractViolation
  deriving DecidableEq, Repr

/-- What has no step (log entry 10). -/
inductive Refusal where
  /-- An instruction with no meaning yet: raised in exec's arms only; safe. -/
  | notModelled (mnemonic : String)
  /-- An event in a phase that does not accept it is not a step (R72, R93).
  Raised by stepOpen, stepData, stepEos, stepIoerr, never by a clock edge, which holds the state; safe. -/
  | notAccepted (st : Phase) (kind : EventKind)
  /-- CLOSE outside the terminal phases is not enabled (R65, R70).
  Raised by stepClose; safe. -/
  | closeNotEnabled (st : Phase)
  /-- There is no instance of this number (R48: k below NCHAN).
  Raised by onInst, forceClose and the fetch; safe. -/
  | noSuchInstance (k : Nat)
  /-- An access outside offsets 0 to 15 (R38, 93 V6).
  Raised by memWrite and memRead; in a step only at (AWAITING, 16), which is no state of the block (R67); safe. -/
  | offsetOutsideFrame (a : Nat)
  /-- A READ, FRAME or CONN whose byte counts are not those of R49.
  Raised by execRead, execFrame, execConn and runTraceLine; safe. -/
  | illFormedLine
  deriving DecidableEq, Repr

/-- One instance after RESET (R25, R94): no cell listed, so every byte of `buf` is 0x00. -/
def Inst.reset : Inst := { buf := [], cnt := 0, st := .closed, closeErr := false }

/-- The machine after reset: every instance at the values of R25, and a silent environment. -/
def State.reset : State :=
  { insts := List.replicate Config.nchan Inst.reset, ch := 0, sched := [], draws := 0, result := none }

end Sys2Proof.Machine
end

