-- ==== Sys2Proof/Machine/Ops.lean ====
section
/-! DEFINITION. The named operations: the frame as memory (R27 to R38), the phases, taking an exception and returning from
it (R86, R87), and acting on the selected instance (R26). -/

namespace Sys2Proof.Machine

/-! ### The frame offset space -/

/-- One byte of the accumulator; an unlisted offset reads 0x00 (R25). -/
def memByte : Memory → Nat → Byte
  | [], _ => 0x00#8
  | (k, v) :: m, a => if k = a then v else memByte m a

/-- Store one byte, keeping the canonical form: storing 0x00 leaves the offset unlisted. -/
def memPut : Memory → Nat → Byte → Memory
  | [], a, b => if b = 0x00#8 then [] else [(a, b)]
  | (k, v) :: m, a, b =>
    if a < k then (if b = 0x00#8 then (k, v) :: m else (a, b) :: (k, v) :: m)
    else if a = k then (if b = 0x00#8 then m else (a, b) :: m)
    else (k, v) :: memPut m a b

/-- The canonical form from offset `lo` on. -/
def memWfFrom : Nat → Memory → Bool
  | _, [] => true
  | lo, (k, v) :: m =>
    decide (lo ≤ k) && decide (k < Config.frameLen) && decide (v ≠ 0x00#8) && memWfFrom (k + 1) m

/-- The canonical form: offsets strictly rising and below 16, no byte equal to 0x00. -/
def Memory.wf (m : Memory) : Bool := memWfFrom 0 m

/-- All 16 bytes at 0x00 (R15, R32): the clearing write of OPEN, CLOSE and RESET. -/
def memClear : Memory := []

/-- MemWrite(a, 1, v): requires 0 ≤ a ≤ 15, elsewhere refused (R38, log entry 11). -/
def memWrite (a : Nat) (v : Byte) (m : Memory) : Except Refusal Memory :=
  if a < Config.frameLen then .ok (memPut m a v) else .error (.offsetOutsideFrame a)

/-- The n bytes from offset a on as one little-endian vector, lowest offset least significant (R29, R38). -/
def memAssemble (m : Memory) : (a n : Nat) → BitVec (8 * n)
  | _, 0 => 0#0
  | a, n + 1 => memAssemble m (a + 1) n ++ memByte m a

/-- MemRead(a, n): requires n ∈ {1, 2, 4} and a + n ≤ 16, elsewhere refused (R38, log entry 11). -/
def memRead (a n : Nat) (m : Memory) : Except Refusal (BitVec (8 * n)) :=
  if (n = 1 ∨ n = 2 ∨ n = 4) ∧ a + n ≤ Config.frameLen then .ok (memAssemble m a n)
  else .error (.offsetOutsideFrame a)

/-- frame(buf): the frame vector of the accumulator, buf[15] in the most significant bits (R11, R40). -/
def frameOf (m : Memory) : Frame := memAssemble m 0 16

/-! ### Phases, exceptions, return -/

/-- The codes of `st` (R17). -/
def phaseCode : Phase → BitVec 3
  | .closed => 0#3
  | .awaiting => 1#3
  | .decoded => 2#3
  | .shortRead => 3#3
  | .ioError => 4#3

/-- The terminal phases (R17). -/
def terminal : Phase → Bool
  | .closed => false
  | .awaiting => false
  | .decoded => true
  | .shortRead => true
  | .ioError => true

/-- Acceptance (R72): in_ready, a function of the phase and the kind alone. -/
def inReady (st : Phase) (kind : EventKind) : Bool :=
  match st, kind with
  | .closed, .openConn => true
  | .awaiting, .data => true
  | .awaiting, .eos => true
  | .awaiting, .ioerr => true
  | _, _ => false

/-- Taking an exception (R78, R86): ShortRead and IOError change `st` alone, CloseFailure sets `close_err` alone;
nothing is saved, control goes nowhere. -/
def raiseExn (e : Exn) (x : Inst) : Inst :=
  match e with
  | .shortRead => { x with st := .shortRead }
  | .ioError => { x with st := .ioError }
  | .closeFailure => { x with closeErr := true }

/-- The return from a terminal phase (R87): nothing is restored, the instance is (CLOSED, 0) with a cleared buffer and,
until a close failure is raised, a clear flag. -/
def returnClosed (_ : Inst) : Inst :=
  { buf := memClear, cnt := 0, st := .closed, closeErr := false }

/-! ### Updates of the machine -/

/-- The selected instance takes the value `y`; no other changes (R26). -/
def State.setInst (y : Inst) (s : State) : State := { s with insts := s.insts.set s.ch y }

/-- The value a Decode or FLD instruction evaluated to. -/
def State.setResult (r : Reading) (s : State) : State := { s with result := some r }

/-- The next stimulus is taken: instance `k` is the one it concerns. -/
def State.takeEdge (k : Nat) (rest : List Stim) (s : State) : State := { s with ch := k, sched := rest }

/-- The next stimulus, no edge, is taken. -/
def State.takeView (rest : List Stim) (s : State) : State := { s with sched := rest }

/-- The environment does `e` before all else. -/
def State.present (e : Stim) (s : State) : State := { s with sched := e :: s.sched }

/-- A close result has been drawn. -/
def State.countDraw (s : State) : State := { s with draws := s.draws + 1 }

/-- A step of the selected instance: its next value depends on its own value alone (R26, R91). -/
def onInst (f : Inst → Except Refusal Inst) (s : State) : Host.Outcome State Fault Refusal :=
  match s.insts[s.ch]? with
  | none => .refused (.noSuchInstance s.ch)
  | some x =>
    match f x with
    | .ok y => .next (s.setInst y)
    | .error r => .refused r

end Sys2Proof.Machine
end

