-- ==== Sys2Proof/Machine/Operands.lean ====
section
/-! DEFINITION. The field operands: the six extractors (R53 to R58), Decode (R52), Encode (R61), how the assembled vectors
are read as numbers (R43, R62), and the byte operands of the pseudo-instructions (R49). -/

namespace Sys2Proof.Machine

/-- FLD.deviceId(f) = f[7:0] (R53). -/
def fldDeviceId (f : Frame) : BitVec 8 := f.extractLsb' 0 8

/-- FLD.sequenceNum(f) = f[23:8] (R54). -/
def fldSequenceNum (f : Frame) : BitVec 16 := f.extractLsb' 8 16

/-- FLD.timestamp(f) = f[55:24] (R55). -/
def fldTimestamp (f : Frame) : BitVec 32 := f.extractLsb' 24 32

/-- FLD.temperature(f) = f[87:56] (R56). -/
def fldTemperature (f : Frame) : Pattern32 := f.extractLsb' 56 32

/-- FLD.humidity(f) = f[119:88] (R57). -/
def fldHumidity (f : Frame) : Pattern32 := f.extractLsb' 88 32

/-- FLD.status(f) = f[127:120] (R58). -/
def fldStatus (f : Frame) : BitVec 8 := f.extractLsb' 120 8

/-- Decode on a frame vector: total, validates nothing (R52, R59). -/
def decodeFrame (f : Frame) : Record :=
  { deviceId := fldDeviceId f, sequenceNum := fldSequenceNum f, timestamp := fldTimestamp f,
    temperature := fldTemperature f, humidity := fldHumidity f, status := fldStatus f }

/-- Decode on a buffer whose length is checked: other than 16 bytes is a fault, never a value (R82, 90 C1). -/
def decodeBuffer (bytes : List Byte) : Except Fault Record :=
  if bytes.length = Config.frameLen then .ok (decodeFrame (frameOfBytes bytes))
  else .error .decodeContractViolation

/-- Encode(r): the six fields side by side, status in the most significant bits (R61). -/
def encodeRecord (r : Record) : Frame :=
  r.status ++ r.humidity ++ r.temperature ++ r.timestamp ++ r.sequenceNum ++ r.deviceId

/-- uint(v): the unsigned number (R10). -/
def uint {w : Nat} (v : BitVec w) : Nat := v.toNat

/-- sint(v): two's complement (R10, 93 G3; log entry 14). -/
def sint {w : Nat} (v : BitVec w) : Int :=
  if v.msb then (v.toNat : Int) - 2 ^ w else (v.toNat : Int)

/-- The values a reader gives the four integer fields (R43): unsigned but for the timestamp. -/
def deviceIdValue (r : Record) : Nat := uint r.deviceId

def sequenceNumValue (r : Record) : Nat := uint r.sequenceNum

def timestampValue (r : Record) : Int := sint r.timestamp

def statusValue (r : Record) : Nat := uint r.status

/-! The layout of a binary32 pattern (R64), for a reader of the two float ports: no step and no output uses it.
PRESUMED: the spec marks R64 as general knowledge (93 G1, log entry 9). -/

/-- The classes of R64. -/
inductive FloatClass where
  | zero
  | subnormal
  | normal
  | infinity
  | quietNaN
  | signallingNaN
  deriving DecidableEq, Repr

def floatSign (p : Pattern32) : Bool := p.getLsbD 31

def floatExponent (p : Pattern32) : BitVec 8 := p.extractLsb' 23 8

def floatFraction (p : Pattern32) : BitVec 23 := p.extractLsb' 0 23

def floatClass (p : Pattern32) : FloatClass :=
  if floatExponent p = 0#8 then (if floatFraction p = 0#23 then .zero else .subnormal)
  else if floatExponent p = 255#8 then
    (if floatFraction p = 0#23 then .infinity else if p.getLsbD 22 then .quietNaN else .signallingNaN)
  else .normal

/-- The number of a finite pattern as (m, k), meaning m · 2^k; none for infinities and NaNs (R64). -/
def floatValue (p : Pattern32) : Option (Int × Int) :=
  let sgn : Int := if floatSign p then -1 else 1
  match floatClass p with
  | .zero => some (0, -149)
  | .subnormal => some (sgn * (floatFraction p).toNat, -149)
  | .normal => some (sgn * (2 ^ 23 + (floatFraction p).toNat), (floatExponent p).toNat - 150)
  | .infinity => none
  | .quietNaN => none
  | .signallingNaN => none

/-! ### The byte operands of READ, FRAME and RECORD -/

/-- READ b0 ... b(k-1) is k DATA steps, in that order (R49). -/
def readSteps (bytes : List Byte) : List Basic := bytes.map .data

/-- RECORD is FRAME of Encode(record) (R49). -/
def recordSteps (r : Record) : List Basic := readSteps (bytesOfFrame (encodeRecord r))

/-- The steps a line stands for (R48, R49). -/
def lineSteps : Line → List Basic
  | .step b => [b]
  | .read bytes => readSteps bytes
  | .frame bytes => readSteps bytes
  | .record r => recordSteps r

end Sys2Proof.Machine
end

