-- ==== Sys2Proof/Machine/FrameDecoder.lean ====
section
/-! DEFINITION. The Frame Decoder family (40_frame_decode.md): Decode and the six extractors. Each writes no state of any
instance, sets no flag and raises nothing (R52); its value goes to the model's field `result` (log entry 5). -/

namespace Sys2Proof.Machine

/-- Decode (R52); on a buffer of other than 16 bytes the fault of R82. -/
def execDecode (bytes : List Byte) (s : State) : Host.Outcome State Fault Refusal :=
  match decodeBuffer bytes with
  | .ok r => .next (s.setResult (.record r))
  | .error e => .fault e

/-- FLD.deviceId (R53). -/
def execFldDeviceId (f : Frame) (s : State) : Host.Outcome State Fault Refusal :=
  .next (s.setResult (.deviceId (fldDeviceId f)))

/-- FLD.sequenceNum (R54). -/
def execFldSequenceNum (f : Frame) (s : State) : Host.Outcome State Fault Refusal :=
  .next (s.setResult (.sequenceNum (fldSequenceNum f)))

/-- FLD.timestamp (R55). -/
def execFldTimestamp (f : Frame) (s : State) : Host.Outcome State Fault Refusal :=
  .next (s.setResult (.timestamp (fldTimestamp f)))

/-- FLD.temperature (R56). -/
def execFldTemperature (f : Frame) (s : State) : Host.Outcome State Fault Refusal :=
  .next (s.setResult (.temperature (fldTemperature f)))

/-- FLD.humidity (R57). -/
def execFldHumidity (f : Frame) (s : State) : Host.Outcome State Fault Refusal :=
  .next (s.setResult (.humidity (fldHumidity f)))

/-- FLD.status (R58). -/
def execFldStatus (f : Frame) (s : State) : Host.Outcome State Fault Refusal :=
  .next (s.setResult (.status (fldStatus f)))

end Sys2Proof.Machine
end

