-- ==== Sys2Proof/Machine/Flags.lean ====
section
/-! DEFINITION. The one flag, close_err (R18), and the STATUS view (R22). No instruction sets a flag as a side effect. -/

namespace Sys2Proof.Machine

/-- The flag after OPEN and after RESET: clear (R18). -/
def flagCleared : Bool := false

/-- CLOSE's flag rule: close_err is the drawn result of the close; a failure is the exception CloseFailure (R18, R81). -/
def flagClose (cf : Bool) (x : Inst) : Inst := if cf then raiseExn .closeFailure x else x

/-- The count as its 5 bits (R16). -/
def cntBits (c : Fin 17) : BitVec 5 := BitVec.ofNat 5 c.val

/-- The STATUS view: close_err at bit 8, st at bits 7 to 5, cnt at bits 4 to 0 (R22). -/
def statusView (x : Inst) : BitVec 9 := BitVec.ofBool x.closeErr ++ phaseCode x.st ++ cntBits x.cnt

end Sys2Proof.Machine
end

