-- ==== Sys2Proof/Machine/Stream.lean ====
section
/-! DEFINITION. The stream events and the two other steps (41_stream_events.md, R94): OPEN, DATA, EOS, IOERR, CLOSE, RESET.
Each step of one instance is a function of that instance alone; the instruction's meaning lifts it to the machine. -/

namespace Sys2Proof.Machine

/-- OPEN (R66). -/
def stepOpen (x : Inst) : Except Refusal Inst :=
  if inReady x.st .openConn then
    .ok { buf := memClear, cnt := 0, st := .awaiting, closeErr := flagCleared }
  else .error (.notAccepted x.st .openConn)

/-- DATA b (R67): the byte is stored at offset cnt, cnt goes up by one, and the sixteenth byte enters DECODED. -/
def stepData (b : Byte) (x : Inst) : Except Refusal Inst :=
  if inReady x.st .data then
    match memWrite x.cnt.val b x.buf with
    | .ok m =>
      .ok { x with
        buf := m
        cnt := x.cnt + 1
        st := if x.cnt.val + 1 = Config.frameLen then .decoded else x.st }
    | .error r => .error r
  else .error (.notAccepted x.st .data)

/-- EOS (R68): raises ShortRead. -/
def stepEos (x : Inst) : Except Refusal Inst :=
  if inReady x.st .eos then .ok (raiseExn .shortRead x) else .error (.notAccepted x.st .eos)

/-- IOERR (R69): raises IOError. -/
def stepIoerr (x : Inst) : Except Refusal Inst :=
  if inReady x.st .ioerr then .ok (raiseExn .ioError x) else .error (.notAccepted x.st .ioerr)

/-- CLOSE cf (R70): the return from a terminal phase, and close_err <- cf. -/
def stepClose (cf : Bool) (x : Inst) : Except Refusal Inst :=
  if terminal x.st then .ok (flagClose cf (returnClosed x)) else .error (.closeNotEnabled x.st)

/-- RESET (R94): enabled in every state. -/
def stepReset (_ : Inst) : Except Refusal Inst :=
  .ok { buf := memClear, cnt := 0, st := .closed, closeErr := flagCleared }

/-- A step by its name (R71). -/
def basicStep : Basic → Inst → Except Refusal Inst
  | .openConn => stepOpen
  | .data b => stepData b
  | .eos => stepEos
  | .ioerr => stepIoerr
  | .close cf => stepClose cf
  | .reset => stepReset

/-- OPEN (R66). -/
def execOpen (s : State) : Host.Outcome State Fault Refusal := onInst stepOpen s

/-- DATA b (R67). -/
def execData (b : Byte) (s : State) : Host.Outcome State Fault Refusal := onInst (stepData b) s

/-- EOS (R68). -/
def execEos (s : State) : Host.Outcome State Fault Refusal := onInst stepEos s

/-- IOERR (R69). -/
def execIoerr (s : State) : Host.Outcome State Fault Refusal := onInst stepIoerr s

/-- CLOSE cf (R70). -/
def execClose (cf : Bool) (s : State) : Host.Outcome State Fault Refusal := onInst (stepClose cf) s

/-- RESET (R94). -/
def execReset (s : State) : Host.Outcome State Fault Refusal := onInst stepReset s

end Sys2Proof.Machine
end

