-- ==== Sys2Proof/Machine/Trace.lean ====
section
/-! DEFINITION. The trace notation (R48) and its pseudo-instructions READ, FRAME, RECORD, CONN (R49): each runs the steps it
expands to, in order, on the selected instance. -/

namespace Sys2Proof.Machine

/-- The close result of a CLOSE that the notation does not write out: R48's default cf = 0, with which programs P1 to P3 of
95_test_vectors.md expand CONN. -/
def defaultCloseFail : Bool := false

/-- The CLOSE a terminal phase forces, with the default close result (R48, R49, R70); in any other phase nothing. -/
def forceClose (s : State) : Host.Outcome State Fault Refusal :=
  match s.insts[s.ch]? with
  | none => .refused (.noSuchInstance s.ch)
  | some x =>
    if terminal x.st then onInst (stepClose defaultCloseFail) s else .next s

/-- One line of a trace: a CLOSE left out after a terminal phase is still taken before the line's own step, as it is the
only step enabled there but RESET (R48, R70, R85; log entry 12). -/
def runLine (b : Basic) (s : State) : Host.Outcome State Fault Refusal :=
  match b with
  | .close cf => onInst (stepClose cf) s
  | .reset => onInst stepReset s
  | .openConn | .data _ | .eos | .ioerr =>
    match forceClose s with
    | .next s' => onInst (basicStep b) s'
    | .fault e => .fault e
    | .refused r => .refused r

/-- The lines of a trace in order; it stops at the first line that is not a step (R48). -/
def runLines : List Basic → State → Host.Outcome State Fault Refusal
  | [], s => .next s
  | b :: bs, s =>
    match runLine b s with
    | .next s' => runLines bs s'
    | .fault e => .fault e
    | .refused r => .refused r

/-- READ b0 ... b(k-1): k DATA steps (R49). -/
def execRead (bytes : List Byte) (s : State) : Host.Outcome State Fault Refusal :=
  if readLengthOk bytes then runLines (readSteps bytes) s else .refused .illFormedLine

/-- FRAME b0 ... b15: 16 DATA steps (R49). -/
def execFrame (bytes : List Byte) (s : State) : Host.Outcome State Fault Refusal :=
  if frameLengthOk bytes then runLines (readSteps bytes) s else .refused .illFormedLine

/-- RECORD: FRAME of Encode(record) (R49, R61). -/
def execRecord (r : Record) (s : State) : Host.Outcome State Fault Refusal :=
  runLines (recordSteps r) s

/-- CONN: OPEN, the lines, then the CLOSE that the terminal phase forces; a connection that has reached no outcome stays
pending (R49, R77; log entry 12). -/
def execConn (lines : List Line) (s : State) : Host.Outcome State Fault Refusal :=
  if lines.all Line.wf then
    match runLines (.openConn :: lines.flatMap lineSteps) s with
    | .next s' => forceClose s'
    | .fault e => .fault e
    | .refused r => .refused r
  else .refused .illFormedLine

/-- A line of a whole trace, on the selected instance. A line of a length that R49 gives no expansion, a READ of no byte or
a FRAME of other than sixteen, alone or under a CONN, is refused by name, as `exec` refuses it: the spec leaves open what
such a line is, and this is the model's choice (log entry 10). -/
def runTraceLine (l : TraceLine) (s : State) : Host.Outcome State Fault Refusal :=
  match l with
  | .line l => if l.wf then runLines (lineSteps l) s else .refused .illFormedLine
  | .conn lines => execConn lines s

/-- A trace over several instances: each line is labelled `ch<k>:` (R48).
The spec leaves open which state a trace ends in where an instance's last line leaves it in a terminal phase; here it is the
one the last line leaves, and a CLOSE omitted after that line is not part of it: the model's choice (log entry 17). -/
def runTrace : List (Nat × TraceLine) → State → Host.Outcome State Fault Refusal
  | [], s => .next s
  | (k, l) :: t, s =>
    match runTraceLine l { s with ch := k } with
    | .next s' => runTrace t s'
    | .fault e => .fault e
    | .refused r => .refused r

end Sys2Proof.Machine
end

