-- ==== Sys2Proof/Machine/Dispatch.lean ====
section
/-! DEFINITION. exec: one arm per constructor of Instr. -/

namespace Sys2Proof.Machine

def exec (i : Instr) (s : State) : Host.Outcome State Fault Refusal :=
  match i with
  | .data b => Sys2Proof.Machine.execData b s
  | .eos => Sys2Proof.Machine.execEos s
  | .ioerr => Sys2Proof.Machine.execIoerr s
  | .openConn => Sys2Proof.Machine.execOpen s
  | .close cf => Sys2Proof.Machine.execClose cf s
  | .reset => Sys2Proof.Machine.execReset s
  | .decode bytes => Sys2Proof.Machine.execDecode bytes s
  | .fldDeviceId f => Sys2Proof.Machine.execFldDeviceId f s
  | .fldSequenceNum f => Sys2Proof.Machine.execFldSequenceNum f s
  | .fldTimestamp f => Sys2Proof.Machine.execFldTimestamp f s
  | .fldTemperature f => Sys2Proof.Machine.execFldTemperature f s
  | .fldHumidity f => Sys2Proof.Machine.execFldHumidity f s
  | .fldStatus f => Sys2Proof.Machine.execFldStatus f s
  | .read bytes => Sys2Proof.Machine.execRead bytes s
  | .frame bytes => Sys2Proof.Machine.execFrame bytes s
  | .record r => Sys2Proof.Machine.execRecord r s
  | .conn lines => Sys2Proof.Machine.execConn lines s

end Sys2Proof.Machine
end

