-- ==== Sys2Proof/Machine/Fetch.lean ====
section
/-! DEFINITION. Which instruction the next step runs (R85, R96): the taking of an event from the input port is the analogue of
instruction fetch (R37). -/

namespace Sys2Proof.Machine

/-- What a fetch gives: an instruction to run in a state, no step (the state holds), or no such instance. -/
inductive Fetch where
  | run (i : Instr) (s : State)
  | hold (s : State)
  | stop (r : Refusal)
  deriving DecidableEq, Repr

/-- The step an instance takes at a rising edge with these pins (R85, R96): RESET, else CLOSE in a terminal phase, else the
presented event if acceptable, else none. -/
def edgeInstr (pins : Pins) (x : Inst) : Option Instr :=
  if pins.rst then some .reset
  else if terminal x.st then some (.close pins.closeFail)
  else if pins.inValid && inReady x.st (kindOfCode pins.inKind) then some (eventInstr pins.inKind pins.inData)
  else none

/-- A rising edge of the selected instance. -/
def fetchEdge (pins : Pins) (s : State) : Fetch :=
  match s.insts[s.ch]? with
  | none => .stop (.noSuchInstance s.ch)
  | some x =>
    match edgeInstr pins x with
    | some i => .run i s
    | none => .hold s

/-- The number of the first instance in a terminal phase, counting from `n`. -/
def firstTerminal : (n : Nat) → List Inst → Option Nat
  | _, [] => none
  | n, x :: xs => if terminal x.st then some n else firstTerminal (n + 1) xs

/-- Which instance a silent environment lets take its CLOSE: the selected one if it is in a terminal phase, else the first
that is (R104; log entry 13). -/
def pendingClose (s : State) : Option Nat :=
  match s.insts[s.ch]? with
  | some x => if terminal x.st then some s.ch else firstTerminal 0 s.insts
  | none => firstTerminal 0 s.insts

/-- The silent environment (R99): only CLOSE, which needs no event, is taken, with a drawn close result (R70, R104). -/
def fetchSilent (s : State) : Fetch :=
  match pendingClose s with
  | some k => .run (.close (Config.closeFail s.draws)) (s.countDraw.takeEdge k [])
  | none => .hold s

/-- What the next step runs, and the state it runs in. -/
def fetch (s : State) : Fetch :=
  match s.sched with
  | [] => fetchSilent s
  | .edge k pins :: rest => fetchEdge pins (s.takeEdge k rest)
  | .view v f :: rest => .run (viewInstr v f) (s.takeView rest)

/-! ### Presenting one instruction, for withFetchWord -/

/-- The pins that present an event (R19, R44). -/
def eventPins (kind : EventKind) (data : Byte) : Pins :=
  { rst := false, inValid := true, inKind := kindCode kind, inData := data, closeFail := false }

/-- The instance brought to a phase that accepts the kind, if it is not in one: as OPEN leaves it for a byte, an end or a
failure of a stream, as RESET leaves it for OPEN (log entry 8). -/
def readyFor (kind : EventKind) (x : Inst) : Inst :=
  if inReady x.st kind then x
  else if kind = .openConn then Inst.reset
  else { buf := memClear, cnt := 0, st := .awaiting, closeErr := flagCleared }

/-- The event is presented to the selected instance at the next edge. -/
def presentEvent (kind : EventKind) (data : Byte) (s : State) : State :=
  match s.insts[s.ch]? with
  | none => s
  | some x => (s.setInst (readyFor kind x)).present (.edge s.ch (eventPins kind data))

/-- The instruction is what the next step runs; one with no encoding cannot be presented as a word (R39). -/
def presentInstr (i : Instr) (s : State) : State :=
  match i with
  | .data b => presentEvent .data b s
  | .eos => presentEvent .eos 0x00#8 s
  | .ioerr => presentEvent .ioerr 0x00#8 s
  | .openConn => presentEvent .openConn 0x00#8 s
  | .close _ => s
  | .reset => s
  | .decode bytes => s.present (.view .whole (frameOfBytes bytes))
  | .fldDeviceId f => s.present (.view .deviceId f)
  | .fldSequenceNum f => s.present (.view .sequenceNum f)
  | .fldTimestamp f => s.present (.view .timestamp f)
  | .fldTemperature f => s.present (.view .temperature f)
  | .fldHumidity f => s.present (.view .humidity f)
  | .fldStatus f => s.present (.view .status f)
  | .read _ => s
  | .frame _ => s
  | .record _ => s
  | .conn _ => s

/-- The table row's word is what the next step fetches; a word the decoder refuses leaves the state as it is. -/
def presentWord (s : State) (nbits w : Nat) : State :=
  match decodeTableWord nbits w with
  | some i => presentInstr i s
  | none => s

end Sys2Proof.Machine
end

