-- ==== Sys2Proof/Machine/Step.lean ====
section
/-! DEFINITION. One step of the machine: the instruction the environment and the phases select is run (R85, R96). -/

namespace Sys2Proof.Machine

/-- One step: fetch, then exec; where nothing is selected the state holds. -/
def step (s : State) : Host.Outcome State Fault Refusal :=
  match fetch s with
  | .run i t => exec i t
  | .hold t => .next t
  | .stop r => .refused r

/-- The state whose next step runs the instruction of this table word. -/
def State.withFetchWord (s : State) (nbits w : Nat) : State := presentWord s nbits w

end Sys2Proof.Machine
end

