-- ==== Sys2Proof/Machine/Ports.lean ====
section
/-! DEFINITION. The output ports (R19, R20): pure functions of one instance's state; none has a register of its own. -/

namespace Sys2Proof.Machine

/-- The outputs of one instance other than in_ready, which also depends on in_kind (R19, R96). -/
structure Outputs where
  closeReq       : Bool
  st             : BitVec 3
  cnt            : BitVec 5
  closeErr       : Bool
  recValid       : Bool
  recDeviceId    : BitVec 8
  recSequenceNum : BitVec 16
  recTimestamp   : BitVec 32
  recTemperature : Pattern32
  recHumidity    : Pattern32
  recStatus      : BitVec 8
  recRaw         : Frame
  deriving DecidableEq, Repr

/-- The report as an option (R20): the record and the raw frame in DECODED, nothing elsewhere. -/
def report (x : Inst) : Option (Record × Frame) :=
  if x.st = .decoded then some (decodeFrame (frameOf x.buf), frameOf x.buf) else none

/-- The record every rec_* port shows outside DECODED: zero (R20). -/
def zeroRecord : Record :=
  { deviceId := 0#8, sequenceNum := 0#16, timestamp := 0#32, temperature := 0#32, humidity := 0#32, status := 0#8 }

/-- What the record ports show: the report, or zeros (R20). -/
def shownRecord (x : Inst) : Record :=
  match report x with
  | some (r, _) => r
  | none => zeroRecord

/-- What rec_raw shows (R20, R50). -/
def shownRaw (x : Inst) : Frame :=
  match report x with
  | some (_, f) => f
  | none => 0#128

/-- The output ports (R19, R20). -/
def outputs (x : Inst) : Outputs :=
  { closeReq := terminal x.st
    st := phaseCode x.st
    cnt := cntBits x.cnt
    closeErr := x.closeErr
    recValid := decide (x.st = .decoded)
    recDeviceId := (shownRecord x).deviceId
    recSequenceNum := (shownRecord x).sequenceNum
    recTimestamp := (shownRecord x).timestamp
    recTemperature := (shownRecord x).temperature
    recHumidity := (shownRecord x).humidity
    recStatus := (shownRecord x).status
    recRaw := shownRaw x }

/-- The port in_ready: whether the kind on in_kind is legal in the present phase (R19, R72). -/
def inReadyPort (x : Inst) (inKind : BitVec 2) : Bool := inReady x.st (kindOfCode inKind)

end Sys2Proof.Machine
end

