-- ==== Sys2Proof/Safety.lean ====
section
/-! DEFINITION. What a legal state is (R24), and the runs of one instance that claims about a connection speak of (R74, R77). -/

namespace Sys2Proof.Machine

/-- I6: every byte at or above the count is 0x00 (R24). -/
abbrev Inst.zeroFrom (x : Inst) : Prop :=
  ∀ i : Fin 16, x.cnt.val ≤ i.val → memByte x.buf i.val = 0x00#8

/-- The invariants I2 to I7 of R24 that a state alone can show, and the canonical form of the buffer.
I1 holds of the type Phase. Of I4 the count is here; which byte each offset holds is a fact about the run (R73). -/
abbrev Inst.Inv (x : Inst) : Prop :=
  x.buf.wf = true ∧
  (x.st = .closed → x.cnt.val = 0) ∧
  (x.st = .awaiting → x.cnt.val ≤ 15) ∧
  (x.st = .decoded → x.cnt.val = 16) ∧
  (x.st = .shortRead → x.cnt.val ≤ 15) ∧
  (x.st = .ioError → x.cnt.val ≤ 15) ∧
  x.zeroFrom ∧
  (x.closeErr = true → x.st = .closed)

/-- Every instance is legal, and the selected one exists. -/
abbrev State.Inv (s : State) : Prop :=
  (∀ x ∈ s.insts, x.Inv) ∧ s.ch < s.insts.length

/-- The stimulus the next step takes concerns an instance there is (R48: k below NCHAN). -/
def State.headInRange (s : State) : Prop :=
  ∀ k pins rest, s.sched = .edge k pins :: rest → k < s.insts.length

/-- A run of one instance: its steps in order (R9, R71); an error where one of them is not enabled. -/
def instRun : List Basic → Inst → Except Refusal Inst
  | [], x => .ok x
  | b :: bs, x =>
    match basicStep b x with
    | .ok y => instRun bs y
    | .error r => .error r

/-- The events of a connection that reaches an outcome (R77): sixteen bytes, or fewer and then an end or a failure. -/
abbrev endsConnection (events : List Basic) : Prop :=
  ∃ bytes : List Byte,
    (events = bytes.map .data ∧ bytes.length = 16) ∨
    (events = bytes.map .data ++ [.eos] ∧ bytes.length ≤ 15) ∨
    (events = bytes.map .data ++ [.ioerr] ∧ bytes.length ≤ 15)

/-- The steps that a line of a whole trace states (R48, R49): of a CONN, all but the CLOSE that the terminal phase forces. -/
def statedSteps : TraceLine → List Basic
  | .line l => lineSteps l
  | .conn lines => .openConn :: lines.flatMap lineSteps

/-- The steps that a labelled trace states for instance `k`, in order. -/
def stepsOf (k : Nat) (t : List (Nat × TraceLine)) : List Basic :=
  t.flatMap fun e => if e.1 = k then statedSteps e.2 else []

/-- Whether a step is a CLOSE. -/
def isCloseStep : Basic → Bool
  | .close _ => true
  | .openConn | .data _ | .eos | .ioerr | .reset => false

/-- Whether a step is an OPEN. -/
def isOpenStep : Basic → Bool
  | .openConn => true
  | .data _ | .eos | .ioerr | .close _ | .reset => false

/-- Whether a step is a RESET. -/
def isResetStep : Basic → Bool
  | .reset => true
  | .openConn | .data _ | .eos | .ioerr | .close _ => false

/-- 1 while a connection is open or waits for its close, 0 in CLOSED. -/
def Inst.openCount (x : Inst) : Nat := if x.st = .closed then 0 else 1

end Sys2Proof.Machine
end

