-- ==== Sys2Proof/Certificates/Slice0/Obligations.lean ====
section
/-! DEFINITION. The statements for the provers, each from the rules its docstring names. In them
`s.insts[s.ch]? = some x` says that x is the selected instance, and a next state
`{ s with insts := s.insts.set s.ch y }` that the selected instance became y and NOTHING ELSE of the machine changed: no
other instance, and none of the model's own fields. -/

open Sys2Proof Sys2Proof.Machine

/-! ### Reset, legality, progress -/

/-- R25: what reset leaves in every instance and at every port; only OPEN (and RESET again) can follow. -/
def Obligations.ResetLeavesTheStatedValues : Prop :=
  State.reset.insts.length = Config.nchan ∧ 1 ≤ Config.nchan ∧
  ∀ x ∈ State.reset.insts,
    x.st = .closed ∧ x.cnt.val = 0 ∧ (∀ a, memByte x.buf a = 0x00#8) ∧ x.closeErr = false ∧
    (∀ kind : BitVec 2, inReadyPort x kind = decide (kind = 3#2)) ∧
    (outputs x).closeReq = false ∧ (outputs x).recValid = false ∧
    (outputs x).recDeviceId = 0#8 ∧ (outputs x).recSequenceNum = 0#16 ∧ (outputs x).recTimestamp = 0#32 ∧
    (outputs x).recTemperature = 0#32 ∧ (outputs x).recHumidity = 0#32 ∧ (outputs x).recStatus = 0#8 ∧
    (outputs x).recRaw = 0#128 ∧
    (∀ b y, basicStep b x = .ok y → b = .openConn ∨ b = .reset)

/-- R94: RESET has its effect in every state of the selected instance. -/
def Obligations.ResetClearsFromEveryState : Prop :=
  ∀ (s : State) (x : Inst), s.insts[s.ch]? = some x →
    ∃ y, exec .reset s = .next { s with insts := s.insts.set s.ch y } ∧
      y.st = .closed ∧ y.cnt.val = 0 ∧ (∀ a, memByte y.buf a = 0x00#8) ∧ y.closeErr = false

/-- R24: the state after reset meets the invariants. -/
def Obligations.ResetStateIsLegal : Prop := State.reset.Inv

/-- R24: every step of the machine keeps the invariants, from every state that meets them. -/
def Obligations.EveryStepKeepsLegality : Prop :=
  ∀ s t : State, s.Inv → step s = .next t → t.Inv

/-- R24: every instruction, the pseudo-instructions among them, keeps the invariants. -/
def Obligations.EveryInstructionKeepsLegality : Prop :=
  ∀ (i : Instr) (s t : State), s.Inv → exec i s = .next t → t.Inv

/-- R96: in a legal state whose next stimulus, if there is one, concerns an instance there is (`headInRange`), the machine
has a next state: no event, however presented, stops it. That a machine with no stimulus left has a next state too, which in
the end is the same state, is the model's choice (log entry 3). -/
def Obligations.LegalStateAlwaysSteps : Prop :=
  ∀ s : State, s.Inv → s.headInRange → ∃ t, step s = .next t

/-- R82: Decode on a buffer of other than 16 bytes is the fault DecodeContractViolation, and no step of the machine, from
any state, reaches it. -/
def Obligations.DecodeContractViolationIsAFaultNoStepReaches : Prop :=
  (∀ (s : State) (bytes : List Byte), bytes.length ≠ 16 →
    exec (.decode bytes) s = .fault .decodeContractViolation) ∧
  (∀ s : State, step s ≠ .fault .decodeContractViolation)

/-! ### The steps of one instance -/

/-- R66: an event of kind 3 is OPEN, whatever its data; OPEN in CLOSED opens a connection with a clean count, buffer and
flag; in any other phase it is no step. -/
def Obligations.OpenStartsAConnection : Prop :=
  (∀ d : Byte, eventInstr 3#2 d = .openConn) ∧
  ∀ (s : State) (x : Inst), s.insts[s.ch]? = some x →
    (x.st = .closed →
      ∃ y, exec .openConn s = .next { s with insts := s.insts.set s.ch y } ∧
        y.st = .awaiting ∧ y.cnt.val = 0 ∧ (∀ a, memByte y.buf a = 0x00#8) ∧ y.closeErr = false) ∧
    (x.st ≠ .closed → ∀ t, exec .openConn s ≠ .next t)

/-- R67: an event of kind 0 is DATA of its data byte; DATA stores its byte at the offset `cnt` and nowhere else, counts it, and the sixteenth enters DECODED; outside
AWAITING it is no step. -/
def Obligations.DataStoresItsByteAtTheCount : Prop :=
  (∀ b : Byte, eventInstr 0#2 b = .data b) ∧
  ∀ (s : State) (x : Inst) (b : Byte), s.insts[s.ch]? = some x → x.buf.wf = true →
    (x.st = .awaiting → x.cnt.val ≤ 15 →
      ∃ y, exec (.data b) s = .next { s with insts := s.insts.set s.ch y } ∧
        memByte y.buf x.cnt.val = b ∧
        (∀ a, a ≠ x.cnt.val → memByte y.buf a = memByte x.buf a) ∧ y.buf.wf = true ∧
        y.cnt.val = x.cnt.val + 1 ∧
        y.st = (if x.cnt.val + 1 = 16 then .decoded else .awaiting) ∧
        (x.cnt.val = 15 → report y = some (decodeFrame (frameOf y.buf), frameOf y.buf)) ∧
        y.closeErr = x.closeErr) ∧
    (x.st ≠ .awaiting → ∀ t, exec (.data b) s ≠ .next t)

/-- R68: an event of kind 1 is EOS, whatever its data; EOS in AWAITING, at every count, changes `st` alone, to SHORT_READ; no record reaches a port; outside AWAITING it
is no step. -/
def Obligations.EosRaisesShortRead : Prop :=
  (∀ d : Byte, eventInstr 1#2 d = .eos) ∧
  ∀ (s : State) (x : Inst), s.insts[s.ch]? = some x →
    (x.st = .awaiting →
      ∃ y, exec .eos s = .next { s with insts := s.insts.set s.ch y } ∧
        y.st = .shortRead ∧ y.cnt = x.cnt ∧ y.buf = x.buf ∧ y.closeErr = x.closeErr ∧
        (outputs y).recValid = false ∧ (outputs y).closeReq = true ∧ (outputs y).recDeviceId = 0#8 ∧
        (outputs y).recSequenceNum = 0#16 ∧ (outputs y).recTimestamp = 0#32 ∧ (outputs y).recTemperature = 0#32 ∧
        (outputs y).recHumidity = 0#32 ∧ (outputs y).recStatus = 0#8 ∧ (outputs y).recRaw = 0#128 ∧ report y = none) ∧
    (x.st ≠ .awaiting → ∀ t, exec .eos s ≠ .next t)

/-- R69: an event of kind 2 is IOERR, whatever its data; IOERR in AWAITING, at every count, changes `st` alone, to IO_ERROR; no record reaches a port; outside AWAITING it
is no step. -/
def Obligations.IoerrRaisesIoError : Prop :=
  (∀ d : Byte, eventInstr 2#2 d = .ioerr) ∧
  ∀ (s : State) (x : Inst), s.insts[s.ch]? = some x →
    (x.st = .awaiting →
      ∃ y, exec .ioerr s = .next { s with insts := s.insts.set s.ch y } ∧
        y.st = .ioError ∧ y.cnt = x.cnt ∧ y.buf = x.buf ∧ y.closeErr = x.closeErr ∧
        (outputs y).recValid = false ∧ (outputs y).closeReq = true ∧ (outputs y).recDeviceId = 0#8 ∧
        (outputs y).recSequenceNum = 0#16 ∧ (outputs y).recTimestamp = 0#32 ∧ (outputs y).recTemperature = 0#32 ∧
        (outputs y).recHumidity = 0#32 ∧ (outputs y).recStatus = 0#8 ∧ (outputs y).recRaw = 0#128 ∧ report y = none) ∧
    (x.st ≠ .awaiting → ∀ t, exec .ioerr s ≠ .next t)

/-- R70: CLOSE in each terminal phase, with either close result; it is then the only step enabled but RESET, and outside
the terminal phases it is not enabled. -/
def Obligations.CloseReturnsToClosed : Prop :=
  ∀ (s : State) (x : Inst) (cf : Bool), s.insts[s.ch]? = some x →
    (x.st = .decoded ∨ x.st = .shortRead ∨ x.st = .ioError →
      (∃ y, exec (.close cf) s = .next { s with insts := s.insts.set s.ch y } ∧
        y.st = .closed ∧ y.cnt.val = 0 ∧ (∀ a, memByte y.buf a = 0x00#8) ∧ y.closeErr = cf ∧
        (outputs y).closeReq = false) ∧
      (outputs x).closeReq = true ∧
      (∀ b y, basicStep b x = .ok y → b = .reset ∨ ∃ c, b = .close c)) ∧
    (x.st = .closed ∨ x.st = .awaiting → ∀ t, exec (.close cf) s ≠ .next t)

/-- R65, R72, R93: an event in a phase that does not accept it is no step, and CLOSE outside the terminal phases is not
enabled. The names of these stops are the model's (log entry 10). -/
def Obligations.UnacceptableStepsAreRefusedByName : Prop :=
  ∀ (s : State) (x : Inst), s.insts[s.ch]? = some x →
    (x.st ≠ .closed → exec .openConn s = .refused (.notAccepted x.st .openConn)) ∧
    (x.st ≠ .awaiting → ∀ b, exec (.data b) s = .refused (.notAccepted x.st .data)) ∧
    (x.st ≠ .awaiting → exec .eos s = .refused (.notAccepted x.st .eos)) ∧
    (x.st ≠ .awaiting → exec .ioerr s = .refused (.notAccepted x.st .ioerr)) ∧
    (x.st = .closed ∨ x.st = .awaiting → ∀ cf, exec (.close cf) s = .refused (.closeNotEnabled x.st))

/-- R65: the transition table: the next (st, cnt) of every step from every legal instance, none where the table says not
accepted or not enabled. -/
def Obligations.TransitionsAreTheTable : Prop :=
  ∀ (b : Basic) (x : Inst), x.Inv →
    ((basicStep b x).toOption.map fun y => (y.st, y.cnt.val)) =
      (match b, x.st with
        | .reset, _ => some (.closed, 0)
        | .openConn, .closed => some (.awaiting, 0)
        | .data _, .awaiting => if x.cnt.val = 15 then some (.decoded, 16) else some (.awaiting, x.cnt.val + 1)
        | .eos, .awaiting => some (.shortRead, x.cnt.val)
        | .ioerr, .awaiting => some (.ioError, x.cnt.val)
        | .close _, .decoded => some (.closed, 0)
        | .close _, .shortRead => some (.closed, 0)
        | .close _, .ioError => some (.closed, 0)
        | _, _ => none)

/-- R18: `close_err` is written by CLOSE (the drawn result), OPEN and RESET (cleared) and by no other step, and no step
reads it: changing it changes no other piece of the next state, and no other output. -/
def Obligations.CloseErrWrittenByThreeAndReadByNone : Prop :=
  (∀ (x : Inst) (c : Bool), outputs { x with closeErr := c } = { outputs x with closeErr := c }) ∧
  ∀ (b : Basic) (x y : Inst), basicStep b x = .ok y →
    y.closeErr = (match b with
      | .close cf => cf
      | .openConn => false
      | .reset => false
      | .data _ => x.closeErr
      | .eos => x.closeErr
      | .ioerr => x.closeErr) ∧
    (outputs y).closeErr = y.closeErr ∧
    ∀ c, ∃ y', basicStep b { x with closeErr := c } = .ok y' ∧
      y'.st = y.st ∧ y'.cnt = y.cnt ∧ y'.buf = y.buf

/-! ### The Frame Decoder -/

/-- R42: every field is its bytes side by side, lowest offset least significant, and nothing else is done to them. -/
def Obligations.FieldsAreTheirBytesLittleEndian : Prop :=
  ∀ b0 b1 b2 b3 b4 b5 b6 b7 b8 b9 b10 b11 b12 b13 b14 b15 : Byte,
    decodeFrame (frameOfBytes [b0, b1, b2, b3, b4, b5, b6, b7, b8, b9, b10, b11, b12, b13, b14, b15]) =
      { deviceId := b0
        sequenceNum := b2 ++ b1
        timestamp := b6 ++ b5 ++ b4 ++ b3
        temperature := b10 ++ b9 ++ b8 ++ b7
        humidity := b14 ++ b13 ++ b12 ++ b11
        status := b15 }

/-- R53 to R58: each extractor is its slice of the frame vector, with the value the rule gives it, and is the MemRead of its
offsets and width. -/
def Obligations.ExtractorsReadTheirSlices : Prop :=
  (∀ f : Frame,
    uint (fldDeviceId f) = f.toNat % 2 ^ 8 ∧
    uint (fldSequenceNum f) = f.toNat / 2 ^ 8 % 2 ^ 16 ∧
    sint (fldTimestamp f) =
      (if f.toNat / 2 ^ 24 % 2 ^ 32 < 2 ^ 31 then ((f.toNat / 2 ^ 24 % 2 ^ 32 : Nat) : Int)
        else ((f.toNat / 2 ^ 24 % 2 ^ 32 : Nat) : Int) - 2 ^ 32) ∧
    (fldTemperature f).toNat = f.toNat / 2 ^ 56 % 2 ^ 32 ∧
    (fldHumidity f).toNat = f.toNat / 2 ^ 88 % 2 ^ 32 ∧
    uint (fldStatus f) = f.toNat / 2 ^ 120) ∧
  (∀ m : Memory,
    memRead 0 1 m = .ok (fldDeviceId (frameOf m)) ∧
    memRead 1 2 m = .ok (fldSequenceNum (frameOf m)) ∧
    memRead 3 4 m = .ok (fldTimestamp (frameOf m)) ∧
    memRead 7 4 m = .ok (fldTemperature (frameOf m)) ∧
    memRead 11 4 m = .ok (fldHumidity (frameOf m)) ∧
    memRead 15 1 m = .ok (fldStatus (frameOf m)))

/-- R52: the instruction Decode on 16 bytes completes in every state and changes no instance. That its value is left in the
field `result` is the model's choice (log entry 5). -/
def Obligations.DecodeCompletesWithTheRecord : Prop :=
  ∀ (s : State) (bytes : List Byte), bytes.length = 16 →
    exec (.decode bytes) s =
      .next { s with result := some (.record (decodeFrame (frameOfBytes bytes))) }

/-- R53 to R58: the six extractor instructions complete in every state, on every frame, and change no instance. That the
value is left in the field `result` is the model's choice (log entry 5). -/
def Obligations.ExtractorsCompleteWithTheirField : Prop :=
  ∀ (s : State) (f : Frame),
    exec (.fldDeviceId f) s = .next { s with result := some (.deviceId (f.extractLsb' 0 8)) } ∧
    exec (.fldSequenceNum f) s = .next { s with result := some (.sequenceNum (f.extractLsb' 8 16)) } ∧
    exec (.fldTimestamp f) s = .next { s with result := some (.timestamp (f.extractLsb' 24 32)) } ∧
    exec (.fldTemperature f) s = .next { s with result := some (.temperature (f.extractLsb' 56 32)) } ∧
    exec (.fldHumidity f) s = .next { s with result := some (.humidity (f.extractLsb' 88 32)) } ∧
    exec (.fldStatus f) s = .next { s with result := some (.status (f.extractLsb' 120 8)) }

/-- R61: Encode is the two-sided inverse of Decode, byte for byte as the rule lists it. -/
def Obligations.EncodeInvertsDecode : Prop :=
  (∀ r : Record, decodeFrame (encodeRecord r) = r) ∧
  (∀ f : Frame, encodeRecord (decodeFrame f) = f) ∧
  (∀ r : Record,
    bytesOfFrame (encodeRecord r) =
      [r.deviceId, r.sequenceNum.extractLsb' 0 8, r.sequenceNum.extractLsb' 8 8,
       r.timestamp.extractLsb' 0 8, r.timestamp.extractLsb' 8 8, r.timestamp.extractLsb' 16 8, r.timestamp.extractLsb' 24 8,
       r.temperature.extractLsb' 0 8, r.temperature.extractLsb' 8 8, r.temperature.extractLsb' 16 8,
       r.temperature.extractLsb' 24 8,
       r.humidity.extractLsb' 0 8, r.humidity.extractLsb' 8 8, r.humidity.extractLsb' 16 8, r.humidity.extractLsb' 24 8,
       r.status])

/-- R63: a frame with a pattern in a float slice shows that pattern, bit for bit, at the port. -/
def Obligations.FloatPatternsReachThePortsUnchanged : Prop :=
  ∀ (x : Inst) (r : Record), x.st = .decoded → (∀ a < 16, memByte x.buf a = frameByte (encodeRecord r) a) →
    (outputs x).recTemperature = r.temperature ∧ (outputs x).recHumidity = r.humidity

/-- R43, R62: the integer fields read as numbers stay in their ranges, and the sign of the timestamp is its bit 31. -/
def Obligations.FieldValuesStayInTheirRanges : Prop :=
  ∀ r : Record,
    deviceIdValue r ≤ 255 ∧ sequenceNumValue r ≤ 65535 ∧ statusValue r ≤ 255 ∧
    -2147483648 ≤ timestampValue r ∧ timestampValue r ≤ 2147483647 ∧
    (timestampValue r < 0 ↔ r.timestamp.getLsbD 31 = true)

/-! ### The frame as memory -/

/-- R38: MemWrite stores one byte at offsets 0 to 15; MemRead assembles 1, 2 or 4 bytes little-endian; outside, both are
refused. -/
def Obligations.MemReadAndMemWriteMeanings : Prop :=
  (∀ (m : Memory) (a : Nat) (v : Byte), m.wf = true → a ≤ 15 →
    ∃ m', memWrite a v m = .ok m' ∧ m'.wf = true ∧ memByte m' a = v ∧ ∀ c, c ≠ a → memByte m' c = memByte m c) ∧
  (∀ (m : Memory) (a : Nat) (v : Byte), 16 ≤ a → memWrite a v m = .error (.offsetOutsideFrame a)) ∧
  (∀ (m : Memory) (a n : Nat), (n = 1 ∨ n = 2 ∨ n = 4) → a + n ≤ 16 →
    ∃ v, memRead a n m = .ok v ∧ v.toNat = ∑ k ∈ Finset.range n, (memByte m (a + k)).toNat * 256 ^ k) ∧
  (∀ (m : Memory) (a n : Nat), ¬((n = 1 ∨ n = 2 ∨ n = 4) ∧ a + n ≤ 16) →
    memRead a n m = .error (.offsetOutsideFrame a))

/-- R40: byte i of the frame vector is the byte at offset i, and its number is the sum of the bytes by powers of 256; and
so for the accumulator. -/
def Obligations.FrameVectorPacksSixteenBytes : Prop :=
  (∀ bytes : List Byte, bytes.length = 16 →
    (∀ i, i < 16 → frameByte (frameOfBytes bytes) i = bytes.getD i 0x00#8) ∧
    (frameOfBytes bytes).toNat = ∑ i ∈ Finset.range 16, (bytes.getD i 0x00#8).toNat * 256 ^ i) ∧
  (∀ m : Memory, ∀ i, i < 16 → frameByte (frameOf m) i = memByte m i)

/-! ### The ports -/

/-- R20: the report outputs: the record and the raw frame of the accumulator in DECODED, zeros elsewhere. -/
def Obligations.PortsShowTheReportInDecodedOnly : Prop :=
  ∀ x : Inst,
    ((outputs x).recValid = true ↔ x.st = .decoded) ∧
    ((outputs x).closeReq = true ↔ x.st = .decoded ∨ x.st = .shortRead ∨ x.st = .ioError) ∧
    (x.st = .decoded →
      (outputs x).recDeviceId = memByte x.buf 0 ∧
      (outputs x).recSequenceNum = memByte x.buf 2 ++ memByte x.buf 1 ∧
      (outputs x).recTimestamp = memByte x.buf 6 ++ memByte x.buf 5 ++ memByte x.buf 4 ++ memByte x.buf 3 ∧
      (outputs x).recTemperature = memByte x.buf 10 ++ memByte x.buf 9 ++ memByte x.buf 8 ++ memByte x.buf 7 ∧
      (outputs x).recHumidity = memByte x.buf 14 ++ memByte x.buf 13 ++ memByte x.buf 12 ++ memByte x.buf 11 ∧
      (outputs x).recStatus = memByte x.buf 15 ∧
      (∀ i, i < 16 → frameByte (outputs x).recRaw i = memByte x.buf i) ∧
      report x = some (decodeFrame (outputs x).recRaw, (outputs x).recRaw)) ∧
    (x.st ≠ .decoded →
      (outputs x).recDeviceId = 0#8 ∧ (outputs x).recSequenceNum = 0#16 ∧ (outputs x).recTimestamp = 0#32 ∧
      (outputs x).recTemperature = 0#32 ∧ (outputs x).recHumidity = 0#32 ∧ (outputs x).recStatus = 0#8 ∧
      (outputs x).recRaw = 0#128 ∧ report x = none)

/-- R20, R79: outside DECODED no output depends on any byte of the accumulator. -/
def Obligations.PartialBytesReachNoOutput : Prop :=
  ∀ (x : Inst) (m : Memory), x.st ≠ .decoded → outputs { x with buf := m } = outputs x

/-- R72: in_ready is a function of the phase and the kind alone: OPEN in CLOSED, the other three in AWAITING. -/
def Obligations.AcceptanceIsOfPhaseAndKindAlone : Prop :=
  ∀ (x : Inst) (kind : BitVec 2),
    (inReadyPort x kind = true ↔
      (x.st = .closed ∧ kind = 3#2) ∨ (x.st = .awaiting ∧ (kind = 0#2 ∨ kind = 1#2 ∨ kind = 2#2)))

/-- R17, R22: the codes of the phases at the port `st`; the STATUS view holds cnt, st and close_err at their bits, and no
byte of the accumulator. -/
def Obligations.StatusViewHoldsThreeFields : Prop :=
  ∀ x : Inst,
    (outputs x).st = (match x.st with
      | .closed => 0#3
      | .awaiting => 1#3
      | .decoded => 2#3
      | .shortRead => 3#3
      | .ioError => 4#3) ∧
    (outputs x).cnt.toNat = x.cnt.val ∧
    (statusView x).extractLsb' 0 5 = (outputs x).cnt ∧ (statusView x).extractLsb' 5 3 = (outputs x).st ∧
    (statusView x).getLsbD 8 = x.closeErr ∧
    (statusView x).toNat = x.cnt.val + 32 * (phaseCode x.st).toNat + (if x.closeErr then 256 else 0)

/-! ### The pseudo-instructions -/

/-- R49, R73: READ in AWAITING of as many bytes as still fit stores them in stream order from the count on, leaves every
other byte, and enters DECODED exactly when they complete the frame. -/
def Obligations.ReadStoresItsBytesInOrder : Prop :=
  ∀ (s : State) (x : Inst) (bytes : List Byte), s.insts[s.ch]? = some x → x.buf.wf = true → x.st = .awaiting →
    1 ≤ bytes.length → x.cnt.val + bytes.length ≤ 16 →
    ∃ y, exec (.read bytes) s = .next { s with insts := s.insts.set s.ch y } ∧
      (∀ i, i < bytes.length → memByte y.buf (x.cnt.val + i) = bytes.getD i 0x00#8) ∧
      (∀ a, a < x.cnt.val ∨ x.cnt.val + bytes.length ≤ a → memByte y.buf a = memByte x.buf a) ∧
      y.buf.wf = true ∧ y.cnt.val = x.cnt.val + bytes.length ∧
      y.st = (if x.cnt.val + bytes.length = 16 then .decoded else .awaiting) ∧ y.closeErr = x.closeErr

/-- R73: how bytes are grouped into reads makes no difference, in any state. -/
def Obligations.GroupingOfReadsMakesNoDifference : Prop :=
  ∀ (s : State) (a b : List Byte), 1 ≤ a.length → 1 ≤ b.length → a.length + b.length ≤ 16 →
    exec (.read (a ++ b)) s =
      (match exec (.read a) s with
        | .next t => exec (.read b) t
        | .fault e => .fault e
        | .refused r => .refused r)

/-- R73, R77: sixteen bytes on a fresh connection end in DECODED at count 16, and the report is Decode of exactly those
bytes, in stream order. -/
def Obligations.FrameOnFreshConnectionIsDecoded : Prop :=
  ∀ (s : State) (x : Inst) (bytes : List Byte), s.insts[s.ch]? = some x → x.buf.wf = true → x.st = .awaiting →
    x.cnt.val = 0 → bytes.length = 16 →
    ∃ y, exec (.frame bytes) s = .next { s with insts := s.insts.set s.ch y } ∧
      y.st = .decoded ∧ y.cnt.val = 16 ∧ y.closeErr = x.closeErr ∧
      report y = some (decodeFrame (frameOfBytes bytes), frameOfBytes bytes)

/-- R61, R49: the round trip through the machine: a record sent on a fresh connection is the record reported. -/
def Obligations.RecordSentIsRecordReported : Prop :=
  ∀ (s : State) (x : Inst) (r : Record), s.insts[s.ch]? = some x → x.buf.wf = true → x.st = .awaiting →
    x.cnt.val = 0 →
    ∃ y, exec (.record r) s = .next { s with insts := s.insts.set s.ch y } ∧
      y.st = .decoded ∧ y.cnt.val = 16 ∧ y.closeErr = x.closeErr ∧ report y = some (r, encodeRecord r)

/-- R77, R49, R48: the outcome of a connection from its events alone, however its bytes are grouped into lines. With sixteen
bytes, or fewer and an end or a failure, the instance is CLOSED again, with the default close result 0 in `close_err`, or
with the result that a CLOSE line at the end states; with fewer bytes and nothing more it stays pending; with a RESET line at
the end it is as after reset. From a terminal phase, whatever the lines, the CLOSE of the connection before is taken first,
and the CONN then runs as from CLOSED; in AWAITING a CONN is no trace, since OPEN is no step there. Lines that hold a further
OPEN are the subject of ConnectionsFollowOneAnother. Where a trace takes the CLOSE steps it leaves out is log entry
12. -/
def Obligations.ConnectionRunsToItsOutcome : Prop :=
  ∀ (s : State) (x : Inst) (lines : List Line), s.insts[s.ch]? = some x → lines.all Line.wf = true →
    (x.st = .closed → endsConnection (lines.flatMap lineSteps) →
      exec (.conn lines) s =
        .next { s with insts := s.insts.set s.ch { buf := [], cnt := 0, st := .closed, closeErr := false } }) ∧
    (x.st = .closed → ∀ events cf, lines.flatMap lineSteps = events ++ [.close cf] → endsConnection events →
      exec (.conn lines) s =
        .next { s with insts := s.insts.set s.ch { buf := [], cnt := 0, st := .closed, closeErr := cf } }) ∧
    (x.st = .closed → ∀ bytes : List Byte, lines.flatMap lineSteps = bytes.map .data → bytes.length ≤ 15 →
      ∃ y, exec (.conn lines) s = .next { s with insts := s.insts.set s.ch y } ∧
        y.st = .awaiting ∧ y.cnt.val = bytes.length ∧ y.closeErr = false ∧
        (∀ i, i < bytes.length → memByte y.buf i = bytes.getD i 0x00#8)) ∧
    (x.st = .decoded ∨ x.st = .shortRead ∨ x.st = .ioError → endsConnection (lines.flatMap lineSteps) →
      exec (.conn lines) s =
        .next { s with insts := s.insts.set s.ch { buf := [], cnt := 0, st := .closed, closeErr := false } }) ∧
    (x.st = .decoded ∨ x.st = .shortRead ∨ x.st = .ioError →
      exec (.conn lines) s =
        exec (.conn lines)
          { s with insts := s.insts.set s.ch { buf := [], cnt := 0, st := .closed, closeErr := false } }) ∧
    (x.st = .closed → ∀ events, lines.flatMap lineSteps = events ++ [.reset] →
      endsConnection events ∨ (∃ bytes : List Byte, events = bytes.map .data ∧ bytes.length ≤ 15) →
      exec (.conn lines) s =
        .next { s with insts := s.insts.set s.ch { buf := [], cnt := 0, st := .closed, closeErr := false } }) ∧
    (x.st = .awaiting → ∀ t, exec (.conn lines) s ≠ .next t)

/-- R48, R49: what the notation gives no expansion is refused by name: READ of no byte or of more than sixteen, FRAME of
other than sixteen, CONN or a labelled trace with such a line, alone or under a CONN. A READ, FRAME or RECORD is no trace outside AWAITING, nor
where its bytes do not all fit before the sixteenth. A CONN is no trace, from any state, if its lines anywhere carry more
than sixteen bytes with no other step between them (R72, R102); NoTraceOverfillsAFrame says so of labelled traces. The name
of the refusal is the model's (log entry 10). -/
def Obligations.IllFormedLinesAreNoSteps : Prop :=
  (∀ (s : State) (bytes : List Byte), bytes.length = 0 ∨ 17 ≤ bytes.length →
    exec (.read bytes) s = .refused .illFormedLine) ∧
  (∀ (s : State) (bytes : List Byte), bytes.length ≠ 16 → exec (.frame bytes) s = .refused .illFormedLine) ∧
  (∀ (s : State) (lines : List Line), lines.all Line.wf = false → exec (.conn lines) s = .refused .illFormedLine) ∧
  (∀ (s : State) (k : Nat) (l : TraceLine) (t : List (Nat × TraceLine)), l.wf = false →
    runTrace ((k, l) :: t) s = .refused .illFormedLine) ∧
  (∀ (s : State) (lines : List Line) (before rest : List Basic) (bytes : List Byte),
    lines.flatMap lineSteps = before ++ bytes.map .data ++ rest → 17 ≤ bytes.length →
    ∀ t, exec (.conn lines) s ≠ .next t) ∧
  (∀ (s : State) (x : Inst), s.insts[s.ch]? = some x → x.Inv →
    (∀ bytes : List Byte, x.st ≠ .awaiting ∨ 16 < x.cnt.val + bytes.length → ∀ t, exec (.read bytes) s ≠ .next t) ∧
    (∀ bytes : List Byte, x.st ≠ .awaiting ∨ x.cnt.val ≠ 0 → ∀ t, exec (.frame bytes) s ≠ .next t) ∧
    (∀ r : Record, x.st ≠ .awaiting ∨ x.cnt.val ≠ 0 → ∀ t, exec (.record r) s ≠ .next t))

/-- R26, R48: a trace, with its CONN lines, changes no instance but those its lines name. -/
def Obligations.TraceTouchesOnlyItsInstances : Prop :=
  ∀ (t : List (Nat × TraceLine)) (s u : State) (k : Nat),
    runTrace t s = .next u → (∀ l, (k, l) ∉ t) → u.insts[k]? = s.insts[k]?

/-! ### Encodings -/

/-- R39 to R47: decoding an encoded well-formed instruction gives it back, with every operand, and leaves the bytes after
it. That the two bytes of an event word lie data byte first is the model's choice (log entry 6). -/
def Obligations.DecodeOfEncodeIsTheInstruction : Prop :=
  ∀ (i : Instr) (fmt : Format) (bytes rest : List Byte), i.wf = true → encode i = some (fmt, bytes) →
    decode fmt (bytes ++ rest) = .ok (i, rest)

/-- R45: the four kinds by mask and match, on every ten-bit word, and the canonical words. How the ten bits lie in bytes is
the model's choice (log entry 6). -/
def Obligations.EventWordsDecodeByMaskAndMatch : Prop :=
  (∀ ev : BitVec 10,
    (ev &&& 0x300#10 = 0x000#10 → decodeTableWord 16 ev.toNat = some (.data (ev.extractLsb' 0 8))) ∧
    (ev &&& 0x300#10 = 0x100#10 → decodeTableWord 16 ev.toNat = some .eos) ∧
    (ev &&& 0x300#10 = 0x200#10 → decodeTableWord 16 ev.toNat = some .ioerr) ∧
    (ev &&& 0x300#10 = 0x300#10 → decodeTableWord 16 ev.toNat = some .openConn)) ∧
  encode .eos = some (.ev10, [0x00#8, 0x01#8]) ∧ encode .ioerr = some (.ev10, [0x00#8, 0x02#8]) ∧
  encode .openConn = some (.ev10, [0x00#8, 0x03#8])

/-- R40, R45: a few words of the spec's own vectors (DV3, DV4, EV2, EV5, EV8, EV10) decode to what they stand for. -/
def Obligations.WordsOfTheSpecDecode : Prop :=
  decodeTableWord 16 0x02A = some (.data 0x2A#8) ∧
  decodeTableWord 16 0x15A = some .eos ∧
  decodeTableWord 16 0x2A5 = some .ioerr ∧
  decodeTableWord 16 0x3FF = some .openConn ∧
  decodeTableWord 128 0x814271000041CC00006553F10012342A =
    some (.decode [0x2A#8, 0x34#8, 0x12#8, 0x00#8, 0xF1#8, 0x53#8, 0x65#8, 0x00#8,
      0x00#8, 0xCC#8, 0x41#8, 0x00#8, 0x00#8, 0x71#8, 0x42#8, 0x81#8]) ∧
  decodeFrame 0x0F0E0D0C0B0A09080706050403020100#128 =
    { deviceId := 0x00#8, sequenceNum := 0x0201#16, timestamp := 0x06050403#32, temperature := 0x0A090807#32,
      humidity := 0x0E0D0C0B#32, status := 0x0F#8 }

/-! ### The step of the machine -/

/-- R37, R96: when the bytes of the presented event decode to an instruction and it is accepted, the step is exec of that
instruction, with the stimulus taken and its instance selected; and when a reader applies Decode or an extractor to a
frame, the step is exec of the instruction those bytes decode to. The list of stimuli is the model's (log entry 3). -/
def Obligations.StepRunsTheDecodedInstruction : Prop :=
  (∀ (s : State) (k : Nat) (pins : Pins) (rest : List Stim) (x : Inst) (i : Instr),
    s.sched = .edge k pins :: rest → s.insts[k]? = some x → pins.rst = false → terminal x.st = false →
    pins.inValid = true → inReadyPort x pins.inKind = true →
    decode .ev10 [pins.inData, pins.inKind.setWidth 8] = .ok (i, []) →
    i.wf = true ∧ step s = exec i { s with ch := k, sched := rest }) ∧
  (∀ (s : State) (v : View) (f : Frame) (rest : List Stim) (i : Instr),
    s.sched = .view v f :: rest → decode (.fr128 v) (bytesOfFrame f) = .ok (i, []) →
    i.wf = true ∧ step s = exec i { s with sched := rest })

/-- R85, R96: at an edge exactly one of four things happens, in this priority: RESET, CLOSE with the sampled result, the
acceptable event, nothing. The list of stimuli is the model's (log entry 3). -/
def Obligations.EdgeTakesOneOfFourInPriority : Prop :=
  ∀ (s : State) (k : Nat) (pins : Pins) (rest : List Stim) (x : Inst),
    s.sched = .edge k pins :: rest → s.insts[k]? = some x →
    step s =
      (if pins.rst = true then exec .reset { s with ch := k, sched := rest }
       else if x.st = .decoded ∨ x.st = .shortRead ∨ x.st = .ioError then
         exec (.close pins.closeFail) { s with ch := k, sched := rest }
       else if pins.inValid = true ∧ x.st = .closed ∧ pins.inKind = 3#2 then
         exec .openConn { s with ch := k, sched := rest }
       else if pins.inValid = true ∧ x.st = .awaiting ∧ pins.inKind = 0#2 then
         exec (.data pins.inData) { s with ch := k, sched := rest }
       else if pins.inValid = true ∧ x.st = .awaiting ∧ pins.inKind = 1#2 then
         exec .eos { s with ch := k, sched := rest }
       else if pins.inValid = true ∧ x.st = .awaiting ∧ pins.inKind = 2#2 then
         exec .ioerr { s with ch := k, sched := rest }
       else .next { s with ch := k, sched := rest })

/-- R71, R99: with a silent environment an instance in AWAITING, or in CLOSED, stays as it is for ever, however many steps
are taken: there is no timeout. -/
def Obligations.StalledInstanceWaitsForEver : Prop :=
  ∀ (s : State) (k : Nat) (x : Inst) (n : Nat), s.sched = [] → s.insts[k]? = some x →
    x.st = .awaiting ∨ x.st = .closed →
    ∃ t, Sys2Proof.core.run n s = .next t ∧ t.insts[k]? = some x

/-- R104: a terminal phase is always left, with no help of the environment: in silence, after as many steps as there are
instances in a terminal phase, none is in one, those instances are CLOSED, no other has changed, and no further step
changes anything. That silence is the empty list of stimuli (log entry 3), and which instance closes first in it (log entry
13), are the model's choices. -/
def Obligations.SilenceClosesEveryTerminalPhase : Prop :=
  ∀ s : State, s.sched = [] →
    ∃ t, Sys2Proof.core.run (s.insts.countP fun x => terminal x.st) s = .next t ∧
      (∀ (k : Nat) (x : Inst), s.insts[k]? = some x →
        ∃ y, t.insts[k]? = some y ∧
          (if terminal x.st = true then y.st = .closed ∧ y.cnt.val = 0 ∧ y.buf = [] else y = x)) ∧
      step t = .next t

/-- R70, R100, R104: a terminal phase lasts exactly one step: the instance's next edge without rst, or the silent
environment's next step where it is the selected instance, leaves it for CLOSED with a cleared buffer. In silence three things
are the model's: that silence is the empty list (log entry 3), the close result, a free value (log entry 4), and that the
selected instance closes in this very step and no other does, even where another is in a terminal phase too (log entry 13). -/
def Obligations.TerminalPhaseLastsOneStep : Prop :=
  (∀ (s : State) (k : Nat) (pins : Pins) (rest : List Stim) (x : Inst),
    s.sched = .edge k pins :: rest → s.insts[k]? = some x → terminal x.st = true → pins.rst = false →
    step s = .next { s with
      ch := k
      sched := rest
      insts := s.insts.set k { buf := [], cnt := 0, st := .closed, closeErr := pins.closeFail } }) ∧
  (∀ (s : State) (x : Inst), s.sched = [] → s.insts[s.ch]? = some x → terminal x.st = true →
    step s = .next { s with
      draws := s.draws + 1
      insts := s.insts.set s.ch { buf := [], cnt := 0, st := .closed, closeErr := Config.closeFail s.draws } })

/-- R101: `close_fail` is ignored at every edge but that of a CLOSE step. -/
def Obligations.CloseFailIsIgnoredElsewhere : Prop :=
  ∀ (s : State) (k : Nat) (pins : Pins) (rest : List Stim) (x : Inst) (cf : Bool),
    s.insts[k]? = some x → pins.rst = true ∨ terminal x.st = false →
    step { s with sched := .edge k { pins with closeFail := cf } :: rest } =
      step { s with sched := .edge k pins :: rest }

/-- R19, R45, R46: `in_data` is ignored at every edge but that of a DATA step: where another kind is presented, under `rst`,
where nothing is presented, and outside AWAITING. The list of stimuli is the model's (log entry 3). -/
def Obligations.DataBitsOfOtherEventsAreIgnored : Prop :=
  ∀ (s : State) (k : Nat) (pins : Pins) (rest : List Stim) (d : Byte),
    pins.inKind ≠ 0#2 ∨ pins.rst = true ∨ pins.inValid = false ∨
      (∀ x, s.insts[k]? = some x → x.st ≠ .awaiting) →
    step { s with sched := .edge k { pins with inData := d } :: rest } =
      step { s with sched := .edge k pins :: rest }

/-- R37: a state that presents a table word runs, in its very next step, the instruction the word decodes to, and the step
completes. How an instance is made ready for an event is the model's choice (log entry 8). -/
def Obligations.PresentedWordRunsNext : Prop :=
  ∀ (s : State) (x : Inst) (nbits w : Nat) (i : Instr),
    s.insts[s.ch]? = some x → x.Inv → decodeTableWord nbits w = some i →
    ∃ t u, step (s.withFetchWord nbits w) = exec i t ∧ exec i t = .next u ∧ u.sched = s.sched

/-! ### Isolation and whole-machine rules -/

/-- R26, R88: no instruction changes any instance but the selected one, nor how many there are, nor what the environment
does next. -/
def Obligations.InstructionsLeaveOtherInstancesAlone : Prop :=
  ∀ (i : Instr) (s t : State), exec i s = .next t →
    (∀ k, k ≠ s.ch → t.insts[k]? = s.insts[k]?) ∧ t.insts.length = s.insts.length ∧ t.ch = s.ch ∧ t.sched = s.sched

/-- R26, R91: an edge of one instance changes no other. -/
def Obligations.EdgesLeaveOtherInstancesAlone : Prop :=
  ∀ (s t : State) (k : Nat) (pins : Pins) (rest : List Stim),
    s.sched = .edge k pins :: rest → step s = .next t →
    (∀ j, j ≠ k → t.insts[j]? = s.insts[j]?) ∧ t.insts.length = s.insts.length ∧ t.sched = rest

/-- R35: edges of two different instances, taken in either order, give every instance the same state. That two edges are two
steps in either order (log entry 15), and the list that holds them (log entry 3), are the model's. -/
def Obligations.EdgesOfTwoInstancesCommute : Prop :=
  ∀ (s t : State) (j k : Nat) (p q : Pins) (rest : List Stim), j ≠ k →
    Sys2Proof.core.run 2 { s with sched := .edge j p :: .edge k q :: rest } = .next t →
    ∃ u, Sys2Proof.core.run 2 { s with sched := .edge k q :: .edge j p :: rest } = .next u ∧
      u.insts = t.insts ∧ u.sched = t.sched

/-- R60, R91: the next state of an instance is a function of its own state and its own pins: no other instance, and nothing
else of the machine, decides it. -/
def Obligations.OwnStateAndPinsDecideTheNextState : Prop :=
  ∀ (s s' t : State) (k : Nat) (pins : Pins) (rest rest' : List Stim),
    s.sched = .edge k pins :: rest → s'.sched = .edge k pins :: rest' → s.insts[k]? = s'.insts[k]? →
    step s = .next t → ∃ t', step s' = .next t' ∧ t'.insts[k]? = t.insts[k]?

/-- R74: along every run of one instance without RESET the CLOSE steps taken, and the connection still open, are as many as
the OPEN steps and the connection open before: every connection that ends is closed exactly once. -/
def Obligations.EveryConnectionIsClosedExactlyOnce : Prop :=
  ∀ (bs : List Basic) (x y : Inst), instRun bs x = .ok y → bs.all (fun b => !isResetStep b) = true →
    bs.countP isCloseStep + y.openCount = bs.countP isOpenStep + x.openCount

/-- R59, R65: the phase and the count a run of DATA steps reaches never depend on the values of the bytes. -/
def Obligations.ByteValuesDoNotSteerTheMachine : Prop :=
  ∀ (bs bs' : List Byte) (x x' y : Inst), bs.length = bs'.length → x.st = x'.st → x.cnt = x'.cnt →
    instRun (bs.map .data) x = .ok y →
    ∃ y', instRun (bs'.map .data) x' = .ok y' ∧ y'.st = y.st ∧ y'.cnt = y.cnt

/-- R72, R102: no labelled trace overfills a frame: if the steps that its lines state for one instance, legal at the start,
hold seventeen DATA with no other step of that instance between them, however the lines of other instances stand among them,
the trace does not run. -/
def Obligations.NoTraceOverfillsAFrame : Prop :=
  ∀ (s : State) (t : List (Nat × TraceLine)) (k : Nat) (before rest : List Basic) (bytes : List Byte),
    (∀ x, s.insts[k]? = some x → x.Inv) →
    stepsOf k t = before ++ bytes.map .data ++ rest → 17 ≤ bytes.length →
    ∀ u, runTrace t s ≠ .next u

/-- R48, R49: a CONN whose lines hold a further OPEN is two connections one after the other: the lines before the OPEN with
the CLOSE that their terminal phase forces, then the lines after it. In every state, whatever the lines; where the first part
reaches no outcome neither side is a trace. That an omitted CLOSE is taken before the next line is log entry 12. -/
def Obligations.ConnectionsFollowOneAnother : Prop :=
  ∀ (s : State) (l₁ l₂ : List Line), l₁.all Line.wf = true → l₂.all Line.wf = true →
    exec (.conn (l₁ ++ .step .openConn :: l₂)) s =
      (match exec (.conn l₁) s with
        | .next t => exec (.conn l₂) t
        | .fault e => .fault e
        | .refused r => .refused r)

/-- R48, R49: a labelled trace of several instances may hold CONN lines, each one connection of the instance it names, whole:
if the instances stand in CLOSED and each line is a CONN whose events reach an outcome, the trace runs, every instance it
names is CLOSED again with `close_err` clear, and no other instance changes. -/
def Obligations.TraceOfConnectionsRuns : Prop :=
  ∀ (s : State) (t : List (Nat × List Line)),
    (∀ e ∈ t, (∃ x, s.insts[e.1]? = some x ∧ x.st = .closed) ∧ e.2.all Line.wf = true ∧
      endsConnection (e.2.flatMap lineSteps)) →
    ∃ u, runTrace (t.map fun e => (e.1, .conn e.2)) s = .next u ∧
      (∀ e ∈ t, u.insts[e.1]? = some { buf := [], cnt := 0, st := .closed, closeErr := false }) ∧
      (∀ k, (∀ e ∈ t, e.1 ≠ k) → u.insts[k]? = s.insts[k]?)
end

