-- ==== Sys2Proof/Laws/Memory.lean ====
section
/-! SUPPORT. The laws of the frame offset space: reading after storing, and the canonical form kept by every operation. -/

namespace Sys2Proof.Machine

@[simp] theorem memByte_memClear (a : Nat) : memByte memClear a = 0x00#8 := rfl

theorem memClear_wf : memClear.wf = true := rfl

/-- The memory of every instance after reset has the canonical form. -/
theorem reset_buf_wf : ∀ x ∈ State.reset.insts, x.buf.wf = true := by
  intro x hx
  rw [State.reset] at hx
  rw [List.eq_of_mem_replicate hx]
  rfl

/-- Below its lower bound a canonical list holds nothing. -/
theorem memByte_below {lo : Nat} {m : Memory} (h : memWfFrom lo m = true) {a : Nat} (ha : a < lo) :
    memByte m a = 0x00#8 := by
  induction m generalizing lo with
  | nil => rfl
  | cons c m ih =>
    obtain ⟨k, v⟩ := c
    simp only [memWfFrom, Bool.and_eq_true, decide_eq_true_eq] at h
    obtain ⟨⟨⟨hlo, -⟩, -⟩, hm⟩ := h
    have hk : k ≠ a := by omega
    simpa [memByte, hk] using ih hm (by omega)

/-- Outside the sixteen offsets a canonical list holds nothing. -/
theorem memByte_outside {lo : Nat} {m : Memory} (h : memWfFrom lo m = true) {a : Nat} (ha : 16 ≤ a) :
    memByte m a = 0x00#8 := by
  induction m generalizing lo with
  | nil => rfl
  | cons c m ih =>
    obtain ⟨k, v⟩ := c
    simp only [memWfFrom, Bool.and_eq_true, decide_eq_true_eq] at h
    obtain ⟨⟨⟨-, hk⟩, -⟩, hm⟩ := h
    have hne : k ≠ a := by
      rintro rfl
      exact absurd hk (Nat.not_lt.mpr ha)
    simpa [memByte, hne] using ih hm

theorem memWfFrom_mono {lo lo' : Nat} {m : Memory} (hle : lo' ≤ lo) (h : memWfFrom lo m = true) :
    memWfFrom lo' m = true := by
  cases m with
  | nil => rfl
  | cons c m =>
    obtain ⟨k, v⟩ := c
    simp only [memWfFrom, Bool.and_eq_true, decide_eq_true_eq] at h ⊢
    obtain ⟨⟨⟨h1, h2⟩, h3⟩, h4⟩ := h
    exact ⟨⟨⟨by omega, h2⟩, h3⟩, h4⟩

theorem memPut_wfFrom {lo a : Nat} {b : Byte} {m : Memory} (hlo : lo ≤ a) (ha : a < 16)
    (h : memWfFrom lo m = true) : memWfFrom lo (memPut m a b) = true := by
  induction m generalizing lo with
  | nil =>
    by_cases hb : b = 0x00#8
    · simp [memPut, hb, memWfFrom]
    · simp [memPut, hb, memWfFrom, Config.frameLen, hlo, ha]
  | cons c m ih =>
    obtain ⟨k, v⟩ := c
    simp only [memWfFrom, Bool.and_eq_true, decide_eq_true_eq, Config.frameLen] at h
    obtain ⟨⟨⟨h1, h2⟩, h3⟩, h4⟩ := h
    by_cases hak : a < k
    · by_cases hb : b = 0x00#8
      · simp [memPut, hak, hb, memWfFrom, Config.frameLen, h1, h2, h3, h4]
      · simp [memPut, hak, hb, memWfFrom, Config.frameLen, hlo, ha, h2, h3, h4, Nat.succ_le_of_lt hak]
    · by_cases hek : a = k
      · subst hek
        by_cases hb : b = 0x00#8
        · simpa [memPut, hb] using memWfFrom_mono (by omega) h4
        · simp [memPut, hb, memWfFrom, Config.frameLen, hlo, ha, h4]
      · have := ih (lo := k + 1) (by omega) h4
        simp [memPut, hak, hek, memWfFrom, Config.frameLen, h1, h2, h3, this]

/-- A store inside the frame keeps the canonical form. -/
theorem memPut_wf {a : Nat} {m : Memory} (ha : a < 16) (b : Byte) (h : m.wf = true) :
    Memory.wf (memPut m a b) = true :=
  memPut_wfFrom (Nat.zero_le a) ha h

theorem memByte_memPut_same_from {lo a : Nat} {b : Byte} {m : Memory} (h : memWfFrom lo m = true) :
    memByte (memPut m a b) a = b := by
  induction m generalizing lo with
  | nil => by_cases hb : b = 0x00#8 <;> simp [memPut, hb, memByte]
  | cons c m ih =>
    obtain ⟨k, v⟩ := c
    have hw := h
    simp only [memWfFrom, Bool.and_eq_true, decide_eq_true_eq] at h
    obtain ⟨-, h4⟩ := h
    by_cases hak : a < k
    · by_cases hb : b = 0x00#8
      · have hne : k ≠ a := by omega
        simpa [memPut, hak, hb, memByte, hne] using memByte_below h4 (a := a) (by omega)
      · simp [memPut, hak, hb, memByte]
    · by_cases hek : a = k
      · subst hek
        by_cases hb : b = 0x00#8
        · simpa [memPut, hb] using memByte_below h4 (a := a) (by omega)
        · simp [memPut, hb, memByte]
      · simpa [memPut, hak, hek, memByte, Ne.symm hek] using ih h4

/-- Reading the stored offset gives the byte stored. -/
theorem memByte_memPut_same {a : Nat} {m : Memory} (b : Byte) (h : m.wf = true) :
    memByte (memPut m a b) a = b :=
  memByte_memPut_same_from h

/-- Reading any other offset gives what it gave before. -/
theorem memByte_memPut_other {a c : Nat} (m : Memory) (b : Byte) (hc : c ≠ a) :
    memByte (memPut m a b) c = memByte m c := by
  induction m with
  | nil => by_cases hb : b = 0x00#8 <;> simp [memPut, hb, memByte, Ne.symm hc]
  | cons d m ih =>
    obtain ⟨k, v⟩ := d
    by_cases hak : a < k
    · by_cases hb : b = 0x00#8 <;> simp [memPut, hak, hb, memByte, Ne.symm hc]
    · by_cases hek : a = k
      · subst hek
        by_cases hb : b = 0x00#8 <;> simp [memPut, hb, memByte, Ne.symm hc]
      · have hput : memPut ((k, v) :: m) a b = (k, v) :: memPut m a b := by simp [memPut, hak, hek]
        rw [hput]
        by_cases hkc : k = c <;> simp [memByte, hkc, ih]

/-- MemWrite inside the frame is a store. -/
theorem memWrite_inside {a : Nat} (ha : a < 16) (v : Byte) (m : Memory) : memWrite a v m = .ok (memPut m a v) := by
  simp [memWrite, Config.frameLen, ha]

/-- What MemWrite can do. -/
theorem memWrite_ok {a : Nat} {v : Byte} {m m' : Memory} (h : memWrite a v m = .ok m') :
    a < 16 ∧ m' = memPut m a v := by
  unfold memWrite at h
  split at h
  · rename_i ha
    exact ⟨ha, by injection h with h; exact h.symm⟩
  · cases h

/-- MemWrite keeps the canonical form. -/
theorem memWrite_wf {a : Nat} {v : Byte} {m m' : Memory} (hm : m.wf = true) (h : memWrite a v m = .ok m') :
    m'.wf = true := by
  obtain ⟨ha, rfl⟩ := memWrite_ok h
  exact memPut_wf ha v hm

/-- Bit j of the assembled vector is bit j mod 8 of the byte at offset a + j / 8 (R29). -/
theorem memAssemble_getLsbD (m : Memory) (a n j : Nat) (hj : j < 8 * n) :
    (memAssemble m a n).getLsbD j = (memByte m (a + j / 8)).getLsbD (j % 8) := by
  induction n generalizing a j with
  | zero => omega
  | succ n ih =>
    show (memAssemble m (a + 1) n ++ memByte m a).getLsbD j = _
    rw [BitVec.getLsbD_append]
    by_cases h8 : j < 8
    · have h1 : j / 8 = 0 := by omega
      have h2 : j % 8 = j := by omega
      simp [h8, h1, h2]
    · have h1 : a + 1 + (j - 8) / 8 = a + j / 8 := by omega
      have h2 : (j - 8) % 8 = j % 8 := by omega
      rw [if_neg h8, ih (a + 1) (j - 8) (by omega), h1, h2]

/-- Bit j of the frame vector (R40). -/
theorem frameOf_getLsbD (m : Memory) (j : Nat) (hj : j < 128) :
    (frameOf m).getLsbD j = (memByte m (j / 8)).getLsbD (j % 8) := by
  have h := memAssemble_getLsbD m 0 16 j (by omega)
  rw [Nat.zero_add] at h
  exact h

end Sys2Proof.Machine
end

