-- ==== Sys2Proof/Laws/Encoding.lean ====
section
/-! SUPPORT. The bits of packed bytes and frames, and the kind codes: what the decoder's and the extractors' proofs cite. -/

namespace Sys2Proof

@[simp] theorem kindOfCode_kindCode (k : EventKind) : kindOfCode (kindCode k) = k := by cases k <;> rfl

@[simp] theorem kindCode_kindOfCode (c : BitVec 2) : kindCode (kindOfCode c) = c := by
  revert c
  decide

@[simp] theorem bytesOfFrame_length (f : Frame) : (bytesOfFrame f).length = 16 := by
  simp [bytesOfFrame, Config.frameLen]

theorem bytesOfFrame_getElem (f : Frame) (i : Nat) (h : i < (bytesOfFrame f).length) :
    (bytesOfFrame f)[i] = frameByte f i := by
  simp [bytesOfFrame]

/-- Bit j of packed bytes is bit j mod 8 of byte j / 8 (R29, R40). -/
theorem packBytes_getLsbD (bytes : List Byte) (j : Nat) :
    (packBytes bytes).getLsbD j = (bytes.getD (j / 8) 0x00#8).getLsbD (j % 8) := by
  induction bytes generalizing j with
  | nil => simp [packBytes]
  | cons b bs ih =>
    show (packBytes bs ++ b).getLsbD j = _
    rw [BitVec.getLsbD_append]
    by_cases h8 : j < 8
    · have h1 : j / 8 = 0 := by omega
      have h2 : j % 8 = j := by omega
      simp [h8, h1, h2]
    · obtain ⟨q, hq⟩ : ∃ q, j / 8 = q + 1 := ⟨j / 8 - 1, by omega⟩
      have h1 : (j - 8) / 8 = q := by omega
      have h2 : (j - 8) % 8 = j % 8 := by omega
      rw [if_neg h8, ih, h1, h2, hq, List.getD_cons_succ]

/-- Bit j of the frame vector of some bytes (R40). -/
theorem frameOfBytes_getLsbD (bytes : List Byte) (j : Nat) (hj : j < 128) :
    (frameOfBytes bytes).getLsbD j = (bytes.getD (j / 8) 0x00#8).getLsbD (j % 8) := by
  simp [frameOfBytes, hj, packBytes_getLsbD]

/-- Bit j of byte i of a frame vector (R40). -/
theorem frameByte_getLsbD (f : Frame) (i j : Nat) (hj : j < 8) : (frameByte f i).getLsbD j = f.getLsbD (8 * i + j) := by
  simp [frameByte, hj]

/-- The frame vector of a frame's bytes is the frame. -/
@[simp] theorem frameOfBytes_bytesOfFrame (f : Frame) : frameOfBytes (bytesOfFrame f) = f := by
  apply BitVec.eq_of_getLsbD_eq
  intro j hj
  have hi : j / 8 < (bytesOfFrame f).length := by simp; omega
  have hsum : 8 * (j / 8) + j % 8 = j := by omega
  rw [frameOfBytes_getLsbD _ _ hj, List.getD_eq_getElem _ _ hi, bytesOfFrame_getElem,
    frameByte_getLsbD _ _ _ (by omega), hsum]

/-- Byte i of the frame vector of some bytes is byte i of them. -/
theorem frameByte_frameOfBytes (bytes : List Byte) (i : Nat) (hi : i < 16) :
    frameByte (frameOfBytes bytes) i = bytes.getD i 0x00#8 := by
  apply BitVec.eq_of_getLsbD_eq
  intro j hj
  have h1 : (8 * i + j) / 8 = i := by omega
  have h2 : (8 * i + j) % 8 = j := by omega
  rw [frameByte_getLsbD _ _ _ hj, frameOfBytes_getLsbD _ _ (by omega), h1, h2]

/-- The bytes of the frame vector of 16 bytes are those bytes. -/
theorem bytesOfFrame_frameOfBytes (bytes : List Byte) (h : bytes.length = 16) :
    bytesOfFrame (frameOfBytes bytes) = bytes := by
  apply List.ext_getElem
  · simp [h]
  · intro i h1 h2
    rw [bytesOfFrame_getElem, frameByte_frameOfBytes _ _ (by omega), List.getD_eq_getElem _ _ h2]

namespace Machine

/-- Byte i of the accumulator's frame vector is buf[i] (R40). -/
theorem frameByte_frameOf (m : Memory) (i : Nat) (hi : i < 16) : frameByte (frameOf m) i = memByte m i := by
  apply BitVec.eq_of_getLsbD_eq
  intro j hj
  have h1 : (8 * i + j) / 8 = i := by omega
  have h2 : (8 * i + j) % 8 = j := by omega
  rw [frameByte_getLsbD _ _ _ hj, frameOf_getLsbD _ _ (by omega), h1, h2]

/-- An accumulator that holds sixteen given bytes has their frame vector (R40). -/
theorem frameOf_eq_frameOfBytes {m : Memory} {bytes : List Byte}
    (h : ∀ i < 16, memByte m i = bytes.getD i 0x00#8) : frameOf m = frameOfBytes bytes := by
  apply BitVec.eq_of_getLsbD_eq
  intro j hj
  rw [frameOf_getLsbD _ _ hj, frameOfBytes_getLsbD _ _ hj, h _ (by omega)]

end Machine

end Sys2Proof
end

