-- ==== Sys2Proof/Laws/PerInstr.lean ====
section
/-! SUPPORT. For every instruction: a well-formed one that has an encoding takes exactly the bytes of its format (R44, R47). -/

namespace Sys2Proof.Laws.EncodedLength

/-- The encoded bytes are as many as the format has. -/
def Statement (i : Instr) : Prop :=
  i.wf = true → ∀ fmt bytes, encode i = some (fmt, bytes) → bytes.length = formatBytes fmt

/-- An instruction with no encoding. -/
theorem of_none {i : Instr} (h : encode i = none) : Statement i := by
  intro _ fmt bytes he
  rw [h] at he
  cases he

/-- An instruction whose encoding is known. -/
theorem of_some {i : Instr} {f : Format} {bs : List Byte} (h : encode i = some (f, bs))
    (hl : i.wf = true → bs.length = formatBytes f) : Statement i := by
  intro hw fmt bytes he
  rw [h] at he
  cases he
  exact hl hw

theorem data (b : Byte) : Statement (.data b) := of_some rfl fun _ => rfl
theorem eos : Statement .eos := of_some rfl fun _ => rfl
theorem ioerr : Statement .ioerr := of_some rfl fun _ => rfl
theorem openConn : Statement .openConn := of_some rfl fun _ => rfl
theorem close (cf : Bool) : Statement (.close cf) := of_none rfl
theorem reset : Statement .reset := of_none rfl
theorem decode (bytes : List Byte) : Statement (.decode bytes) :=
  of_some rfl fun h => of_decide_eq_true h
theorem fldDeviceId (f : Frame) : Statement (.fldDeviceId f) := of_some rfl fun _ => bytesOfFrame_length f
theorem fldSequenceNum (f : Frame) : Statement (.fldSequenceNum f) := of_some rfl fun _ => bytesOfFrame_length f
theorem fldTimestamp (f : Frame) : Statement (.fldTimestamp f) := of_some rfl fun _ => bytesOfFrame_length f
theorem fldTemperature (f : Frame) : Statement (.fldTemperature f) := of_some rfl fun _ => bytesOfFrame_length f
theorem fldHumidity (f : Frame) : Statement (.fldHumidity f) := of_some rfl fun _ => bytesOfFrame_length f
theorem fldStatus (f : Frame) : Statement (.fldStatus f) := of_some rfl fun _ => bytesOfFrame_length f
theorem read (bytes : List Byte) : Statement (.read bytes) := of_none rfl
theorem frame (bytes : List Byte) : Statement (.frame bytes) := of_none rfl
theorem record (r : Record) : Statement (.record r) := of_none rfl
theorem conn (lines : List Line) : Statement (.conn lines) := of_none rfl

end Sys2Proof.Laws.EncodedLength
end

