-- ==== Sys2Proof/Laws/State.lean ====
section
/-! SUPPORT. One lemma per field per update of the machine's state, each true by rfl. -/

namespace Sys2Proof.Machine

variable (s : State) (y : Inst) (r : Reading) (k : Nat) (rest : List Stim) (e : Stim)

@[simp] theorem setInst_insts : (s.setInst y).insts = s.insts.set s.ch y := rfl
@[simp] theorem setInst_ch : (s.setInst y).ch = s.ch := rfl
@[simp] theorem setInst_sched : (s.setInst y).sched = s.sched := rfl
@[simp] theorem setInst_draws : (s.setInst y).draws = s.draws := rfl
@[simp] theorem setInst_result : (s.setInst y).result = s.result := rfl

@[simp] theorem setResult_insts : (s.setResult r).insts = s.insts := rfl
@[simp] theorem setResult_ch : (s.setResult r).ch = s.ch := rfl
@[simp] theorem setResult_sched : (s.setResult r).sched = s.sched := rfl
@[simp] theorem setResult_draws : (s.setResult r).draws = s.draws := rfl
@[simp] theorem setResult_result : (s.setResult r).result = some r := rfl

@[simp] theorem takeEdge_insts : (s.takeEdge k rest).insts = s.insts := rfl
@[simp] theorem takeEdge_ch : (s.takeEdge k rest).ch = k := rfl
@[simp] theorem takeEdge_sched : (s.takeEdge k rest).sched = rest := rfl
@[simp] theorem takeEdge_draws : (s.takeEdge k rest).draws = s.draws := rfl
@[simp] theorem takeEdge_result : (s.takeEdge k rest).result = s.result := rfl

@[simp] theorem takeView_insts : (s.takeView rest).insts = s.insts := rfl
@[simp] theorem takeView_ch : (s.takeView rest).ch = s.ch := rfl
@[simp] theorem takeView_sched : (s.takeView rest).sched = rest := rfl
@[simp] theorem takeView_draws : (s.takeView rest).draws = s.draws := rfl
@[simp] theorem takeView_result : (s.takeView rest).result = s.result := rfl

@[simp] theorem present_insts : (s.present e).insts = s.insts := rfl
@[simp] theorem present_ch : (s.present e).ch = s.ch := rfl
@[simp] theorem present_sched : (s.present e).sched = e :: s.sched := rfl
@[simp] theorem present_draws : (s.present e).draws = s.draws := rfl
@[simp] theorem present_result : (s.present e).result = s.result := rfl

@[simp] theorem countDraw_insts : s.countDraw.insts = s.insts := rfl
@[simp] theorem countDraw_ch : s.countDraw.ch = s.ch := rfl
@[simp] theorem countDraw_sched : s.countDraw.sched = s.sched := rfl
@[simp] theorem countDraw_draws : s.countDraw.draws = s.draws + 1 := rfl
@[simp] theorem countDraw_result : s.countDraw.result = s.result := rfl

/-- The selected instance after it was set. -/
theorem setInst_selected {s : State} {x : Inst} (h : s.insts[s.ch]? = some x) (y : Inst) :
    (s.setInst y).insts[s.ch]? = some y := by
  obtain ⟨hlt, -⟩ := List.getElem?_eq_some_iff.mp h
  simp [hlt]

/-- Another instance after the selected one was set (R26). -/
theorem setInst_other {s : State} {k : Nat} (h : k ≠ s.ch) (y : Inst) :
    (s.setInst y).insts[k]? = s.insts[k]? := by
  simp [Ne.symm h]

/-- Setting the selected instance twice is setting it to the second value. -/
theorem setInst_setInst (s : State) (y z : Inst) : (s.setInst y).setInst z = s.setInst z := by
  simp [State.setInst, List.set_set]

end Sys2Proof.Machine
end

