-- ==== Sys2Proof/Laws/Stream.lean ====
section
/-! SUPPORT. What each step of one instance can do, said once, and what the operations that lift a step to the machine can
do. Later proofs cite these and do not unfold the steps. -/

namespace Sys2Proof.Machine

/-- Two successes are equal when their values are, the second named first. -/
theorem ok_eq_iff {ε α : Type} {a b : α} : (Except.ok a : Except ε α) = .ok b ↔ b = a := by
  rw [Except.ok.injEq, eq_comm]

theorem inReady_openConn {st : Phase} : inReady st .openConn = true ↔ st = .closed := by
  cases st <;> simp [inReady]

theorem inReady_data {st : Phase} : inReady st .data = true ↔ st = .awaiting := by
  cases st <;> simp [inReady]

theorem inReady_eos {st : Phase} : inReady st .eos = true ↔ st = .awaiting := by
  cases st <;> simp [inReady]

theorem inReady_ioerr {st : Phase} : inReady st .ioerr = true ↔ st = .awaiting := by
  cases st <;> simp [inReady]

/-- No event is acceptable in a terminal phase (R72). -/
theorem inReady_of_terminal {st : Phase} (h : terminal st = true) (k : EventKind) : inReady st k = false := by
  cases st <;> simp_all [terminal, inReady]

/-- The phases that are not terminal. -/
theorem terminal_false {st : Phase} : terminal st = false ↔ st = .closed ∨ st = .awaiting := by
  cases st <;> simp [terminal]

/-- What OPEN can do. -/
theorem stepOpen_ok {x y : Inst} :
    stepOpen x = .ok y ↔
      x.st = .closed ∧ y = { buf := memClear, cnt := 0, st := .awaiting, closeErr := false } := by
  unfold stepOpen
  by_cases h : x.st = .closed
  · rw [if_pos (inReady_openConn.mpr h), ok_eq_iff]
    simp [h, flagCleared]
  · have hn : inReady x.st .openConn = false := Bool.eq_false_iff.mpr (fun hr => h (inReady_openConn.mp hr))
    simp [hn, h]

/-- What DATA can do. -/
theorem stepData_ok {b : Byte} {x y : Inst} :
    stepData b x = .ok y ↔
      x.st = .awaiting ∧ x.cnt.val < 16 ∧
        y = { buf := memPut x.buf x.cnt.val b, cnt := x.cnt + 1,
              st := if x.cnt.val + 1 = 16 then .decoded else .awaiting, closeErr := x.closeErr } := by
  unfold stepData
  by_cases h : x.st = .awaiting
  · by_cases hc : x.cnt.val < 16
    · rw [if_pos (inReady_data.mpr h), memWrite_inside hc]
      simp only [ok_eq_iff, h, hc, true_and, Config.frameLen]
    · rw [if_pos (inReady_data.mpr h)]
      simp [memWrite, hc, Config.frameLen]
  · have hn : inReady x.st .data = false := Bool.eq_false_iff.mpr (fun hr => h (inReady_data.mp hr))
    simp [hn, h]

/-- What EOS can do. -/
theorem stepEos_ok {x y : Inst} :
    stepEos x = .ok y ↔ x.st = .awaiting ∧ y = { x with st := .shortRead } := by
  unfold stepEos
  by_cases h : x.st = .awaiting
  · rw [if_pos (inReady_eos.mpr h), ok_eq_iff]
    simp [h, raiseExn]
  · have hn : inReady x.st .eos = false := Bool.eq_false_iff.mpr (fun hr => h (inReady_eos.mp hr))
    simp [hn, h]

/-- What IOERR can do. -/
theorem stepIoerr_ok {x y : Inst} :
    stepIoerr x = .ok y ↔ x.st = .awaiting ∧ y = { x with st := .ioError } := by
  unfold stepIoerr
  by_cases h : x.st = .awaiting
  · rw [if_pos (inReady_ioerr.mpr h), ok_eq_iff]
    simp [h, raiseExn]
  · have hn : inReady x.st .ioerr = false := Bool.eq_false_iff.mpr (fun hr => h (inReady_ioerr.mp hr))
    simp [hn, h]

/-- CLOSE's flag rule writes the drawn result. -/
theorem flagClose_returnClosed (cf : Bool) (x : Inst) :
    flagClose cf (returnClosed x) = { buf := memClear, cnt := 0, st := .closed, closeErr := cf } := by
  cases cf <;> rfl

/-- What CLOSE can do. -/
theorem stepClose_ok {cf : Bool} {x y : Inst} :
    stepClose cf x = .ok y ↔
      terminal x.st = true ∧ y = { buf := memClear, cnt := 0, st := .closed, closeErr := cf } := by
  unfold stepClose
  by_cases h : terminal x.st = true
  · rw [if_pos h, ok_eq_iff, flagClose_returnClosed]
    simp [h]
  · simp [h]

/-- What RESET can do. -/
theorem stepReset_ok {x y : Inst} :
    stepReset x = .ok y ↔ y = { buf := memClear, cnt := 0, st := .closed, closeErr := false } := by
  rw [stepReset, ok_eq_iff, flagCleared]

/-- What a step lifted to the machine can do: the selected instance takes the step, nothing else changes. -/
theorem onInst_next {f : Inst → Except Refusal Inst} {s t : State} :
    onInst f s = .next t ↔ ∃ x y, s.insts[s.ch]? = some x ∧ f x = .ok y ∧ t = s.setInst y := by
  unfold onInst
  cases hx : s.insts[s.ch]? with
  | none => simp
  | some x =>
    cases hf : f x with
    | ok y =>
      simp only [hf, Host.Outcome.next.injEq]
      constructor
      · rintro rfl
        exact ⟨x, y, rfl, hf, rfl⟩
      · rintro ⟨x', y', hx', hf', rfl⟩
        cases hx'
        cases hf.symm.trans hf'
        rfl
    | error r => simp [hf]

/-- A step lifted to the machine never faults. -/
theorem onInst_ne_fault (f : Inst → Except Refusal Inst) (s : State) (e : Fault) : onInst f s ≠ .fault e := by
  unfold onInst
  cases s.insts[s.ch]? with
  | none => simp
  | some x => cases hf : f x <;> simp [hf]

/-- The step a selected instance takes. -/
theorem onInst_of {f : Inst → Except Refusal Inst} {s : State} {x y : Inst} (hx : s.insts[s.ch]? = some x)
    (hf : f x = .ok y) : onInst f s = .next (s.setInst y) :=
  onInst_next.mpr ⟨x, y, hx, hf, rfl⟩

/-- What the forced CLOSE can do: nothing outside the terminal phases, else CLOSE with the default result. -/
theorem forceClose_next {s t : State} :
    forceClose s = .next t ↔ ∃ x, s.insts[s.ch]? = some x ∧
      ((terminal x.st = false ∧ t = s) ∨
        (terminal x.st = true ∧
          t = s.setInst { buf := memClear, cnt := 0, st := .closed, closeErr := false })) := by
  unfold forceClose
  cases hx : s.insts[s.ch]? with
  | none => simp
  | some x =>
    by_cases ht : terminal x.st = true
    · have hc : stepClose defaultCloseFail x =
          .ok { buf := memClear, cnt := 0, st := .closed, closeErr := false } :=
        stepClose_ok.mpr ⟨ht, rfl⟩
      simp [ht, onInst_of hx hc]
      exact eq_comm
    · simp [ht]
      exact eq_comm

/-- What a line's step can do. -/
theorem runLine_next {b : Basic} {s t : State} (h : runLine b s = .next t) :
    onInst (basicStep b) s = .next t ∨
      ∃ s', forceClose s = .next s' ∧ onInst (basicStep b) s' = .next t := by
  cases b with
  | close cf => exact .inl h
  | reset => exact .inl h
  | openConn | data | eos | ioerr =>
    right
    simp only [runLine] at h
    split at h
    · rename_i s' hs
      exact ⟨s', hs, h⟩
    · cases h
    · cases h

/-- The empty trace. -/
@[simp] theorem runLines_nil (s : State) : runLines [] s = .next s := rfl

/-- What a trace of one more line can do. -/
theorem runLines_cons_next {b : Basic} {bs : List Basic} {s t : State} :
    runLines (b :: bs) s = .next t ↔ ∃ s', runLine b s = .next s' ∧ runLines bs s' = .next t := by
  rw [runLines]
  cases h : runLine b s <;> simp

/-- A trace in two parts: the first, then the second where the first runs. -/
theorem runLines_append (a b : List Basic) (s : State) :
    runLines (a ++ b) s =
      (match runLines a s with
        | .next t => runLines b t
        | .fault e => .fault e
        | .refused r => .refused r) := by
  induction a generalizing s with
  | nil => rfl
  | cons c a ih =>
    simp only [List.cons_append, runLines]
    cases runLine c s <;> simp [ih]

/-- What a line of a whole trace can do: its steps, and after a CONN the CLOSE that the terminal phase forces. -/
theorem runTraceLine_next {l : TraceLine} {s u : State} :
    runTraceLine l s = .next u ↔
      l.wf = true ∧
        (match l with
          | .line l => runLines (lineSteps l) s = .next u
          | .conn lines =>
            ∃ s', runLines (.openConn :: lines.flatMap lineSteps) s = .next s' ∧ forceClose s' = .next u) := by
  cases l with
  | line l => cases hw : l.wf <;> simp [runTraceLine, TraceLine.wf, hw]
  | conn lines =>
    simp only [runTraceLine, execConn, TraceLine.wf]
    cases hw : lines.all Line.wf with
    | false => simp
    | true => cases h : runLines (.openConn :: lines.flatMap lineSteps) s <;> simp

/-- What a labelled trace of one more line can do. -/
theorem runTrace_cons_next {k : Nat} {l : TraceLine} {t : List (Nat × TraceLine)} {s u : State} :
    runTrace ((k, l) :: t) s = .next u ↔
      ∃ s', runTraceLine l { s with ch := k } = .next s' ∧ runTrace t s' = .next u := by
  rw [runTrace]
  cases runTraceLine l { s with ch := k } <;> simp

end Sys2Proof.Machine
end

