-- ==== Sys2Proof/Laws/Step.lean ====
section
/-! SUPPORT. What a fetch selects and what a step can do, said once (R85, R96). -/

namespace Sys2Proof.Machine

/-- The steps of one instance as instructions. -/
theorem exec_data (b : Byte) (s : State) : exec (.data b) s = onInst (stepData b) s := rfl
theorem exec_eos (s : State) : exec .eos s = onInst stepEos s := rfl
theorem exec_ioerr (s : State) : exec .ioerr s = onInst stepIoerr s := rfl
theorem exec_openConn (s : State) : exec .openConn s = onInst stepOpen s := rfl
theorem exec_close (cf : Bool) (s : State) : exec (.close cf) s = onInst (stepClose cf) s := rfl
theorem exec_reset (s : State) : exec .reset s = onInst stepReset s := rfl

/-- The event of a word runs the step of that event (R45). -/
theorem exec_eventInstr (kind : BitVec 2) (d : Byte) (s : State) :
    exec (eventInstr kind d) s =
      onInst (match kindOfCode kind with
        | .data => stepData d
        | .eos => stepEos
        | .ioerr => stepIoerr
        | .openConn => stepOpen) s := by
  unfold eventInstr
  cases kindOfCode kind <;> rfl

/-- What an edge with rst = 1 selects. -/
theorem edgeInstr_rst {pins : Pins} (h : pins.rst = true) (x : Inst) : edgeInstr pins x = some .reset := by
  simp [edgeInstr, h]

/-- What an edge in a terminal phase selects. -/
theorem edgeInstr_terminal {pins : Pins} {x : Inst} (h : pins.rst = false) (ht : terminal x.st = true) :
    edgeInstr pins x = some (.close pins.closeFail) := by
  simp [edgeInstr, h, ht]

/-- What an edge with an acceptable event selects. -/
theorem edgeInstr_event {pins : Pins} {x : Inst} (h : pins.rst = false) (ht : terminal x.st = false)
    (hv : pins.inValid = true) (hr : inReady x.st (kindOfCode pins.inKind) = true) :
    edgeInstr pins x = some (eventInstr pins.inKind pins.inData) := by
  simp [edgeInstr, h, ht, hv, hr]

/-- What an edge with no event, or one that is not acceptable, selects. -/
theorem edgeInstr_none {pins : Pins} {x : Inst} (h : pins.rst = false) (ht : terminal x.st = false)
    (hn : (pins.inValid && inReady x.st (kindOfCode pins.inKind)) = false) : edgeInstr pins x = none := by
  simp [edgeInstr, h, ht, hn]

/-- A step at an edge: the selected instruction runs in the state with the stimulus taken, or that state holds. -/
theorem step_edge {s : State} {k : Nat} {pins : Pins} {rest : List Stim} {x : Inst}
    (hs : s.sched = .edge k pins :: rest) (hx : s.insts[k]? = some x) :
    step s = match edgeInstr pins x with
      | some i => exec i (s.takeEdge k rest)
      | none => .next (s.takeEdge k rest) := by
  have hx' : (s.takeEdge k rest).insts[(s.takeEdge k rest).ch]? = some x := hx
  simp only [step, fetch, hs, fetchEdge, hx']
  cases edgeInstr pins x <;> rfl

/-- A step at an edge of an instance there is not. -/
theorem step_edge_noSuch {s : State} {k : Nat} {pins : Pins} {rest : List Stim}
    (hs : s.sched = .edge k pins :: rest) (hx : s.insts[k]? = none) :
    step s = .refused (.noSuchInstance k) := by
  have hx' : (s.takeEdge k rest).insts[(s.takeEdge k rest).ch]? = none := hx
  simp only [step, fetch, hs, fetchEdge, hx']
  rfl

/-- A step that evaluates the Frame Decoder or an extractor. -/
theorem step_view {s : State} {v : View} {f : Frame} {rest : List Stim} (hs : s.sched = .view v f :: rest) :
    step s = exec (viewInstr v f) (s.takeView rest) := by
  simp only [step, fetch, hs]

/-- The first instance in a terminal phase is one there is. -/
theorem firstTerminal_some {xs : List Inst} {n k : Nat} (h : firstTerminal n xs = some k) :
    ∃ i x, k = n + i ∧ xs[i]? = some x ∧ terminal x.st = true := by
  induction xs generalizing n with
  | nil => cases h
  | cons y ys ih =>
    rw [firstTerminal] at h
    split at h
    · rename_i hy
      cases h
      exact ⟨0, y, rfl, rfl, hy⟩
    · obtain ⟨i, x, rfl, hx, ht⟩ := ih h
      exact ⟨i + 1, x, by omega, by simpa using hx, ht⟩

/-- There is no first one where none is in a terminal phase. -/
theorem firstTerminal_none {xs : List Inst} {n : Nat} :
    firstTerminal n xs = none ↔ ∀ x ∈ xs, terminal x.st = false := by
  induction xs generalizing n with
  | nil => simp [firstTerminal]
  | cons y ys ih =>
    rw [firstTerminal]
    cases hy : terminal y.st <;> simp [hy, ih]

/-- The instance that closes in silence is one in a terminal phase. -/
theorem pendingClose_some {s : State} {k : Nat} (h : pendingClose s = some k) :
    ∃ x, s.insts[k]? = some x ∧ terminal x.st = true := by
  have first : firstTerminal 0 s.insts = some k → ∃ x, s.insts[k]? = some x ∧ terminal x.st = true := by
    intro h
    obtain ⟨i, x, rfl, hx, ht⟩ := firstTerminal_some h
    exact ⟨x, by simpa using hx, ht⟩
  unfold pendingClose at h
  split at h
  · rename_i x hx
    split at h
    · rename_i ht
      cases h
      exact ⟨x, hx, ht⟩
    · exact first h
  · exact first h

/-- None closes in silence exactly where none is in a terminal phase. -/
theorem pendingClose_none {s : State} : pendingClose s = none ↔ ∀ x ∈ s.insts, terminal x.st = false := by
  unfold pendingClose
  split
  · rename_i x hx
    split
    · rename_i ht
      constructor
      · intro h
        cases h
      · intro h
        have := h x (List.mem_of_getElem? hx)
        rw [ht] at this
        cases this
    · exact firstTerminal_none
  · exact firstTerminal_none

/-- The selected instance closes first. -/
theorem pendingClose_selected {s : State} {x : Inst} (hx : s.insts[s.ch]? = some x) (ht : terminal x.st = true) :
    pendingClose s = some s.ch := by
  simp [pendingClose, hx, ht]

/-- A step with a silent environment. -/
theorem step_silent {s : State} (hs : s.sched = []) :
    step s = match pendingClose s with
      | some k => exec (.close (Config.closeFail s.draws)) (s.countDraw.takeEdge k [])
      | none => .next s := by
  simp only [step, fetch, hs, fetchSilent]
  cases pendingClose s <;> rfl

/-- What a step with a silent environment can do: nothing where no instance is in a terminal phase, else one that is takes
its CLOSE. -/
theorem step_silent_cases {s : State} (hs : s.sched = []) :
    ((∀ x ∈ s.insts, terminal x.st = false) ∧ step s = .next s) ∨
    ∃ k x, s.insts[k]? = some x ∧ terminal x.st = true ∧
      step s = .next ((s.countDraw.takeEdge k []).setInst
        { buf := memClear, cnt := 0, st := .closed, closeErr := Config.closeFail s.draws }) := by
  rw [step_silent hs]
  cases h : pendingClose s with
  | none => exact .inl ⟨pendingClose_none.mp h, rfl⟩
  | some k =>
    obtain ⟨x, hx, ht⟩ := pendingClose_some h
    exact .inr ⟨k, x, hx, ht, onInst_of (s := s.countDraw.takeEdge k []) hx (stepClose_ok.mpr ⟨ht, rfl⟩)⟩

end Sys2Proof.Machine
end

