-- ==== Sys2Proof/Tests/Slice0.lean ====
section
/-! SUPPORT. Tests: well-formedness, decoding and single steps, each expected value from a vector of
spec/95_test_vectors.md named in its comment; and one witness, or several, that the hypotheses of each obligation can be met. -/

namespace Sys2Proof.Tests

open Sys2Proof Sys2Proof.Machine

/-! ### Small states -/

/-- The cells of some bytes from an offset on. -/
def cells : Nat → List Byte → Memory
  | _, [] => []
  | a, b :: bs => if b = 0x00#8 then cells (a + 1) bs else (a, b) :: cells (a + 1) bs

def inst (st : Phase) (cnt : Fin 17) (bytes : List Byte) (ce : Bool) : Inst :=
  { buf := cells 0 bytes, cnt := cnt, st := st, closeErr := ce }

/-- A machine of one instance. -/
def one (x : Inst) : State := { insts := [x], ch := 0, sched := [], draws := 0, result := none }

/-- A machine of two instances. -/
def two (x y : Inst) : State := { insts := [x, y], ch := 0, sched := [], draws := 0, result := none }

/-- The selected instance of a next state. -/
def sel : Host.Outcome State Fault Refusal → Option Inst
  | .next t => t.insts[t.ch]?
  | .fault _ => none
  | .refused _ => none

/-- All instances of a next state. -/
def all : Host.Outcome State Fault Refusal → Option (List Inst)
  | .next t => some t.insts
  | .fault _ => none
  | .refused _ => none

def value : Host.Outcome State Fault Refusal → Option Reading
  | .next t => t.result
  | .fault _ => none
  | .refused _ => none

def refusal : Host.Outcome State Fault Refusal → Option Refusal
  | .next _ => none
  | .fault _ => none
  | .refused r => some r

def pins (kind : BitVec 2) (data : Byte) : Pins :=
  { rst := false, inValid := true, inKind := kind, inData := data, closeFail := false }

/-- The bytes of vector DV3, which programs P1 to P3 send. -/
def dv3 : List Byte :=
  [0x2A#8, 0x34#8, 0x12#8, 0x00#8, 0xF1#8, 0x53#8, 0x65#8, 0x00#8,
   0x00#8, 0xCC#8, 0x41#8, 0x00#8, 0x00#8, 0x71#8, 0x42#8, 0x81#8]

/-- The bytes of vector DV4. -/
def ramp : List Byte :=
  [0x00#8, 0x01#8, 0x02#8, 0x03#8, 0x04#8, 0x05#8, 0x06#8, 0x07#8,
   0x08#8, 0x09#8, 0x0A#8, 0x0B#8, 0x0C#8, 0x0D#8, 0x0E#8, 0x0F#8]

/-- The frames of vectors DV6 and DV7. -/
def dv6 : Frame := 0x80800000007F80000080000000800080#128

def dv7 : Frame := 0x7F000000017FA000017FFFFFFFFFFFFF#128

/-- The record of vector DV3, RT1. -/
def rt1 : Record :=
  { deviceId := 42#8, sequenceNum := 4660#16, timestamp := 1700000000#32, temperature := 0x41CC0000#32,
    humidity := 0x42710000#32, status := 129#8 }

/-! ### Well-formedness: for each check a term that it refuses, and one that it lets through -/

theorem test_wf_decode_15_bytes_refused : Instr.wf (.decode (dv3.take 15)) = false := by decide

theorem test_wf_read_no_byte_refused : Instr.wf (.read []) = false := by decide

theorem test_wf_read_17_bytes_refused : Instr.wf (.read (0x00#8 :: dv3)) = false := by decide

theorem test_wf_frame_15_bytes_refused : Instr.wf (.frame (dv3.take 15)) = false := by decide

theorem test_wf_frame_17_bytes_refused : Instr.wf (.frame (0x00#8 :: dv3)) = false := by decide

theorem test_wf_conn_bad_read_refused : Instr.wf (.conn [.read [], .step .eos]) = false := by decide

theorem test_wf_conn_bad_frame_refused : Instr.wf (.conn [.frame (dv3.take 15)]) = false := by decide

theorem test_wf_good :
    Instr.wf (.decode dv3) = true ∧ Instr.wf (.read [0x00#8]) = true ∧ Instr.wf (.read dv3) = true ∧
    Instr.wf (.conn [.read (dv3.take 15), .step .eos]) = true := by decide

/-! ### Decoding: words written out from the spec's encodings -/

/-- EV1 to EV3: kind 00, eight bits of data. -/
theorem test_decode_data :
    decodeTableWord 16 0b0000000000 = some (.data 0x00#8) ∧ decodeTableWord 16 0b0000101010 = some (.data 0x2A#8) ∧
    decodeTableWord 16 0b0011111111 = some (.data 0xFF#8) := by decide

/-- EV4 to EV6: kind 01, data ignored. -/
theorem test_decode_eos :
    decodeTableWord 16 0b0100000000 = some .eos ∧ decodeTableWord 16 0b0101011010 = some .eos ∧
    decodeTableWord 16 0b0111111111 = some .eos := by decide

/-- EV7, EV8: kind 10, data ignored. -/
theorem test_decode_ioerr :
    decodeTableWord 16 0b1000000000 = some .ioerr ∧ decodeTableWord 16 0b1010100101 = some .ioerr := by decide

/-- EV9, EV10: kind 11, data ignored. -/
theorem test_decode_open :
    decodeTableWord 16 0b1100000000 = some .openConn ∧ decodeTableWord 16 0b1111111111 = some .openConn := by decide

/-- R39, R44: an event word has ten bits and no more; a short list of bytes is no word (log entry 6). -/
theorem test_decode_rejects_by_name :
    decode .ev10 [0x00#8, 0x04#8] = .error .eventWordTooWide ∧ decode .ev10 [0x00#8] = .error (.tooFewBytes 1) ∧
    decode (.fr128 .whole) (dv3.take 15) = .error (.tooFewBytes 15) := by decide

/-- DV3: the frame vector and its bytes; the lowest byte of the number is byte 0. -/
theorem test_decode_frame :
    decodeTableWord 128 0x814271000041CC00006553F10012342A = some (.decode dv3) := by decide

/-- The extractors' rows end with their highest field: DV4's low bits, every further bit 0 (log entry 7). -/
theorem test_decode_extractors :
    decodeTableWord 8 0x80 = some (.fldDeviceId 0x80#128) ∧
    decodeTableWord 24 0x020100 = some (.fldSequenceNum 0x020100#128) ∧
    decodeTableWord 56 0x06050403020100 = some (.fldTimestamp 0x06050403020100#128) ∧
    decodeTableWord 88 0x0A090807060504030201FF = some (.fldTemperature 0x0A090807060504030201FF#128) ∧
    decodeTableWord 120 0x0E0D0C0B0A09080706050403020100 =
      some (.fldHumidity 0x0E0D0C0B0A09080706050403020100#128) := by decide

/-- FLD.status reads the top slice (R58); its frame is given with the view. -/
theorem test_decode_status :
    decode (.fr128 .status) ramp = .ok (.fldStatus 0x0F0E0D0C0B0A09080706050403020100#128, []) := by decide

/-- The canonical words of R45, as the encoder lays them out. -/
theorem test_encode_events :
    encode (.data 0x7F#8) = some (.ev10, [0x7F#8, 0x00#8]) ∧ encode .openConn = some (.ev10, [0x00#8, 0x03#8]) := by
  decide

/-! ### Single steps -/

/-- SV2: OPEN clears close_err; STATUS 0x020. -/
theorem test_open :
    sel (exec .openConn (one (inst .closed 0 [] true))) = some (inst .awaiting 0 [] false) ∧
    statusView (inst .awaiting 0 [] false) = 0x020#9 := by decide

/-- SV14: OPEN is not accepted over a connection in progress. -/
theorem test_open_not_accepted :
    refusal (exec .openConn (one (inst .awaiting 5 [] false))) = some (.notAccepted .awaiting .openConn) := by decide

/-- SV7: DATA 0x7F at count 2; STATUS 0x023. -/
theorem test_data :
    sel (exec (.data 0x7F#8) (one (inst .awaiting 2 [0x01#8, 0x02#8] false))) =
      some (inst .awaiting 3 [0x01#8, 0x02#8, 0x7F#8] false) ∧
    statusView (inst .awaiting 3 [0x01#8, 0x02#8, 0x7F#8] false) = 0x023#9 := by decide

/-- SV9: the sixteenth byte; STATUS 0x050 and the record of DV4 at the ports. -/
theorem test_data_sixteenth :
    sel (exec (.data 0x0F#8) (one (inst .awaiting 15 (ramp.take 15) false))) = some (inst .decoded 16 ramp false) ∧
    statusView (inst .decoded 16 ramp false) = 0x050#9 ∧
    shownRecord (inst .decoded 16 ramp false) =
      { deviceId := 0x00#8, sequenceNum := 0x0201#16, timestamp := 0x06050403#32, temperature := 0x0A090807#32,
        humidity := 0x0E0D0C0B#32, status := 0x0F#8 } := by decide

/-- SV11, S3: EOS after fifteen bytes; STATUS 0x06F and no record. -/
theorem test_eos :
    sel (exec .eos (one (inst .awaiting 15 (dv3.take 15) false))) = some (inst .shortRead 15 (dv3.take 15) false) ∧
    statusView (inst .shortRead 15 (dv3.take 15) false) = 0x06F#9 := by decide

/-- SV20: after the sixteenth byte EOS is not accepted. -/
theorem test_eos_not_accepted :
    refusal (exec .eos (one (inst .decoded 16 dv3 false))) = some (.notAccepted .decoded .eos) := by decide

/-- SV13: IOERR at count 3; STATUS 0x083. -/
theorem test_ioerr :
    sel (exec .ioerr (one (inst .awaiting 3 [0x07#8, 0x01#8, 0x00#8] false))) =
      some (inst .ioError 3 [0x07#8, 0x01#8, 0x00#8] false) ∧
    statusView (inst .ioError 3 [0x07#8, 0x01#8, 0x00#8] false) = 0x083#9 := by decide

/-- SV16: CLOSE cf=1 after a good decode; STATUS 0x100, the close failure the only trace left. -/
theorem test_close :
    sel (exec (.close true) (one (inst .decoded 16 dv3 false))) = some (inst .closed 0 [] true) ∧
    statusView (inst .closed 0 [] true) = 0x100#9 := by decide

/-- SV17: CLOSE cf=0 after a short read. -/
theorem test_close_short :
    sel (exec (.close false) (one (inst .shortRead 15 (dv3.take 15) false))) = some (inst .closed 0 [] false) := by
  decide

/-- SV26: RESET clears close_err. -/
theorem test_reset : sel (exec .reset (one (inst .closed 0 [] true))) = some (inst .closed 0 [] false) := by decide

/-- SV27: with rst = 1 the OPEN presented at the same edge is not taken. -/
theorem test_reset_priority :
    sel (step ((one (inst .awaiting 1 [0xAA#8] false)).present (.edge 0 { pins 3#2 0x00#8 with rst := true }))) =
      some (inst .closed 0 [] false) := by decide

/-- DV6: the top bit of every integer field; −0.0 and infinity kept. -/
theorem test_decode_dv6 :
    value (exec (.decode (bytesOfFrame dv6)) (one Inst.reset)) =
      some (.record
        { deviceId := 0x80#8, sequenceNum := 0x8000#16, timestamp := 0x80000000#32, temperature := 0x7F800000#32,
          humidity := 0x80000000#32, status := 0x80#8 }) := by decide

/-- FV3: 128, not −128. -/
theorem test_fld_deviceId :
    value (exec (.fldDeviceId dv6) (one Inst.reset)) = some (.deviceId 0x80#8) ∧ uint 0x80#8 = 128 := by decide

/-- FV9: 32768, not −32768. -/
theorem test_fld_sequenceNum :
    value (exec (.fldSequenceNum dv6) (one Inst.reset)) = some (.sequenceNum 0x8000#16) ∧ uint 0x8000#16 = 32768 := by
  decide

/-- FV16, FV17: −2147483648 and −1. -/
theorem test_fld_timestamp :
    value (exec (.fldTimestamp dv6) (one Inst.reset)) = some (.timestamp 0x80000000#32) ∧
    sint 0x80000000#32 = -2147483648 ∧ sint 0xFFFFFFFF#32 = -1 := by decide

/-- FV26: a signalling NaN is kept. -/
theorem test_fld_temperature :
    value (exec (.fldTemperature dv7) (one Inst.reset)) = some (.temperature 0x7FA00001#32) := by decide

/-- FV31: the least subnormal is kept. -/
theorem test_fld_humidity :
    value (exec (.fldHumidity dv7) (one Inst.reset)) = some (.humidity 0x00000001#32) := by decide

/-- FV34: 128, not −128. -/
theorem test_fld_status : value (exec (.fldStatus dv6) (one Inst.reset)) = some (.status 0x80#8) := by decide

/-- The five bytes of the second READ of program P2, after the first one's single byte. -/
theorem test_read :
    sel (exec (.read [0x34#8, 0x12#8, 0x00#8, 0xF1#8, 0x53#8]) (one (inst .awaiting 1 [0x2A#8] false))) =
      some (inst .awaiting 6 [0x2A#8, 0x34#8, 0x12#8, 0x00#8, 0xF1#8, 0x53#8] false) := by decide

/-- GV4: a whole frame. -/
theorem test_frame :
    sel (exec (.frame dv3) (one (inst .awaiting 0 [] false))) = some (inst .decoded 16 dv3 false) := by decide

/-- RT1: the record of DV3 is its bytes. -/
theorem test_record :
    sel (exec (.record rt1) (one (inst .awaiting 0 [] false))) = some (inst .decoded 16 dv3 false) := by decide

/-- P1: a whole frame; the CLOSE that CONN's expansion adds has cf = 0, so close_err ends 0. P4: three bytes, a failure, and
a close that fails too. -/
theorem test_conn :
    sel (exec (.conn [.frame dv3]) (one (inst .closed 0 [] true))) = some (inst .closed 0 [] false) ∧
    sel (exec (.conn [.read [0x07#8, 0x01#8, 0x00#8], .step .ioerr, .step (.close true)])
      (one (inst .closed 0 [] false))) = some (inst .closed 0 [] true) := by decide

/-- A stalled client: the connection stays pending (SV23, R99). -/
theorem test_conn_pending :
    sel (exec (.conn [.read [0xAA#8, 0xBB#8, 0xCC#8]]) (one (inst .closed 0 [] true))) =
      some (inst .awaiting 3 [0xAA#8, 0xBB#8, 0xCC#8] false) := by decide

/-! ### Ports, acceptance, memory, numbers -/

/-- GV1 to GV4: the same bytes, shown in DECODED only. -/
theorem test_gating :
    shownRaw (inst .awaiting 15 (dv3.take 15) false) = 0#128 ∧ shownRaw (inst .shortRead 15 (dv3.take 15) false) = 0#128 ∧
    shownRaw (inst .ioError 15 (dv3.take 15) false) = 0#128 ∧
    shownRaw (inst .decoded 16 dv3 false) = 0x814271000041CC00006553F10012342A#128 ∧
    shownRecord (inst .decoded 16 dv3 false) = rt1 ∧
    shownRecord (inst .shortRead 15 (dv3.take 15) false) = zeroRecord := by decide

/-- The table of 2.5: in_ready for every phase and every kind. -/
theorem test_in_ready :
    ([0#2, 1#2, 2#2, 3#2].map fun k => inReadyPort (inst .closed 0 [] false) k) = [false, false, false, true] ∧
    ([0#2, 1#2, 2#2, 3#2].map fun k => inReadyPort (inst .awaiting 7 [] false) k) = [true, true, true, false] ∧
    (∀ st ∈ [Phase.decoded, .shortRead, .ioError], ∀ k : BitVec 2, inReadyPort (inst st 4 [] false) k = false) := by
  decide

/-- P6, row 4: DATA presented in CLOSED is not taken and changes nothing. -/
theorem test_edge_not_accepted :
    sel (step ((one (inst .closed 0 [] false)).present (.edge 0 (pins 0#2 0x55#8)))) = some (inst .closed 0 [] false) := by
  decide

/-- P5, rows 2 and 4: an edge of one instance leaves the other. -/
theorem test_edge_two_instances :
    all (step ((two (inst .awaiting 1 [0x01#8] false) (inst .closed 0 [] false)).present (.edge 1 (pins 3#2 0x00#8)))) =
      some [inst .awaiting 1 [0x01#8] false, inst .awaiting 0 [] false] := by decide

/-- R38 on DV4's bytes: MemRead at the offsets of the timestamp, and outside. -/
theorem test_memRead :
    memRead 3 4 (cells 0 ramp) = .ok (0x06050403#32) ∧
    (memRead 13 4 (cells 0 ramp) = .error (.offsetOutsideFrame 13)) := by decide

/-- 93 G1, the readings of DV3 and DV6: 25.5 is 13369344 · 2^-19, and the classes of R64. -/
theorem test_float_layout :
    floatValue 0x41CC0000#32 = some (13369344, -19) ∧ floatClass 0x7F800000#32 = .infinity ∧
    floatClass 0x7FA00001#32 = .signallingNaN ∧ floatClass 0x7FC00000#32 = .quietNaN ∧
    floatClass 0x00000001#32 = .subnormal ∧ floatClass 0x80000000#32 = .zero := by decide

/-! ### Witnesses: for each obligation with hypotheses, states and operands that meet them together, each clause at the
boundaries of its range -/

/-- A selected instance is there, whatever it is. -/
theorem selected (x : Inst) : (one x).insts[(one x).ch]? = some x := rfl

def aw0 : Inst := inst .awaiting 0 [] false

def aw14 : Inst := inst .awaiting 14 (ramp.take 14) false

def aw15 : Inst := inst .awaiting 15 (ramp.take 15) false

def dec : Inst := inst .decoded 16 ramp false

def short0 : Inst := inst .shortRead 0 [] false

def short15 : Inst := inst .shortRead 15 (ramp.take 15) false

def ioe0 : Inst := inst .ioError 0 [] false

def ioe15 : Inst := inst .ioError 15 (ramp.take 15) false

def closed : Inst := inst .closed 0 [] false

def closedErr : Inst := inst .closed 0 [] true

/-- The legal instances the witnesses use: every phase, at the ends of its range of counts. -/
def legal : List Inst := [aw0, aw14, aw15, dec, short0, short15, ioe0, ioe15, closed, closedErr]

theorem witness_legal_instances : ∀ x ∈ legal, x.Inv := by decide

theorem witness_ResetLeavesTheStatedValues : Inst.reset ∈ State.reset.insts := by
  simp [State.reset, Config.nchan]

theorem witness_ResetLeavesTheStatedValues_step : basicStep .openConn Inst.reset = .ok aw0 := rfl

theorem witness_ResetClearsFromEveryState : (one dec).insts[(one dec).ch]? = some dec := rfl

/-- A legal state that steps: the sixteenth byte. -/
theorem witness_EveryStepKeepsLegality :
    ((one aw15).present (.edge 0 (pins 0#2 0x0F#8))).Inv ∧
    sel (step ((one aw15).present (.edge 0 (pins 0#2 0x0F#8)))) = some dec := by decide

/-- Every instruction has a legal state in which it gives a next state. -/
theorem witness_EveryInstructionKeepsLegality :
    ∀ p ∈ ([(.data 0x0F#8, aw15), (.eos, aw15), (.ioerr, aw0), (.openConn, closedErr), (.close true, short0),
        (.reset, ioe15), (.decode ramp, dec), (.fldDeviceId dv6, dec), (.fldSequenceNum dv6, dec),
        (.fldTimestamp dv6, dec), (.fldTemperature dv6, dec), (.fldHumidity dv6, dec), (.fldStatus dv6, dec),
        (.read [0x0E#8, 0x0F#8], aw14), (.frame dv3, aw0), (.record rt1, aw0),
        (.conn [.step .eos, .step (.close false)], closed)] : List (Instr × Inst)),
      (one p.2).Inv ∧ (sel (exec p.1 (one p.2))).isSome = true := by decide

/-- Legal states whose next edge is of an instance there is, and one with no stimulus left. -/
theorem witness_LegalStateAlwaysSteps :
    (∀ x ∈ legal, (one x).Inv) ∧ (one aw15).headInRange ∧
    ((one aw15).present (.edge 0 (pins 3#2 0xFF#8))).headInRange := by
  refine ⟨by decide, ?_, ?_⟩
  · intro k p rest h
    cases h
  · intro k p rest h
    cases h
    decide

theorem witness_DecodeContractViolationIsAFaultNoStepReaches :
    ([] : List Byte).length ≠ 16 ∧ (dv3.take 15).length ≠ 16 ∧ (0x00#8 :: dv3).length ≠ 16 := by decide

/-- Both clauses: CLOSED with either flag, and every other phase. -/
theorem witness_OpenStartsAConnection :
    (∀ x ∈ [closed, closedErr], (one x).insts[(one x).ch]? = some x ∧ x.st = .closed) ∧
    (∀ x ∈ [aw0, dec, short0, ioe15], (one x).insts[(one x).ch]? = some x ∧ x.st ≠ .closed) := by decide

/-- Both clauses, the first at counts 0, 14 and 15. -/
theorem witness_DataStoresItsByteAtTheCount :
    (∀ x ∈ [aw0, aw14, aw15],
      (one x).insts[(one x).ch]? = some x ∧ x.buf.wf = true ∧ x.st = .awaiting ∧ x.cnt.val ≤ 15) ∧
    aw15.cnt.val = 15 ∧
    (∀ x ∈ [closed, dec, short15, ioe0],
      (one x).insts[(one x).ch]? = some x ∧ x.buf.wf = true ∧ x.st ≠ .awaiting) := by decide

theorem witness_EosRaisesShortRead :
    (∀ x ∈ [aw0, aw15], (one x).insts[(one x).ch]? = some x ∧ x.st = .awaiting) ∧
    (∀ x ∈ [closed, dec, short15, ioe0], (one x).insts[(one x).ch]? = some x ∧ x.st ≠ .awaiting) := by decide

theorem witness_IoerrRaisesIoError :
    (∀ x ∈ [aw0, aw15], (one x).insts[(one x).ch]? = some x ∧ x.st = .awaiting) ∧
    (∀ x ∈ [closedErr, dec, short0, ioe15], (one x).insts[(one x).ch]? = some x ∧ x.st ≠ .awaiting) := by decide

/-- Each terminal phase, and each of the others. -/
theorem witness_CloseReturnsToClosed :
    (∀ x ∈ [dec, short0, short15, ioe0, ioe15],
      (one x).insts[(one x).ch]? = some x ∧ (x.st = .decoded ∨ x.st = .shortRead ∨ x.st = .ioError)) ∧
    (∀ x ∈ [closed, closedErr, aw0, aw15],
      (one x).insts[(one x).ch]? = some x ∧ (x.st = .closed ∨ x.st = .awaiting)) := by decide

theorem witness_CloseReturnsToClosed_step : basicStep (.close true) dec = .ok closedErr := rfl

theorem witness_UnacceptableStepsAreRefusedByName :
    (one aw0).insts[(one aw0).ch]? = some aw0 ∧ aw0.st ≠ .closed ∧
    (one closed).insts[(one closed).ch]? = some closed ∧ closed.st ≠ .awaiting ∧ closed.st = .closed := by decide

theorem witness_TransitionsAreTheTable : ∀ x ∈ legal, x.Inv := witness_legal_instances

/-- Each of the six steps is taken somewhere. -/
theorem witness_CloseErrWrittenByThreeAndReadByNone :
    basicStep (.close true) short15 = .ok closedErr ∧ basicStep .openConn closedErr = .ok aw0 ∧
    basicStep .reset closedErr = .ok closed ∧ basicStep (.data 0x0F#8) aw15 = .ok dec ∧
    basicStep .eos aw15 = .ok short15 ∧ basicStep .ioerr aw0 = .ok ioe0 := ⟨rfl, rfl, rfl, rfl, rfl, rfl⟩

theorem witness_DecodeCompletesWithTheRecord : dv3.length = 16 := by decide

theorem witness_FloatPatternsReachThePortsUnchanged :
    (inst .decoded 16 dv3 false).st = .decoded ∧
    ∀ a < 16, memByte (inst .decoded 16 dv3 false).buf a = frameByte (encodeRecord rt1) a := by decide

/-- MemWrite at the ends of both ranges, MemRead at the highest offset of each width and just past it. -/
theorem witness_MemReadAndMemWriteMeanings :
    Memory.wf (cells 0 ramp) = true ∧ (0 ≤ 15 ∧ 15 ≤ 15) ∧ 16 ≤ 16 ∧
    ((1 = 1 ∨ 1 = 2 ∨ 1 = 4) ∧ 15 + 1 ≤ 16) ∧ ((2 = 1 ∨ 2 = 2 ∨ 2 = 4) ∧ 14 + 2 ≤ 16) ∧
    ((4 = 1 ∨ 4 = 2 ∨ 4 = 4) ∧ 12 + 4 ≤ 16) ∧
    ¬((1 = 1 ∨ 1 = 2 ∨ 1 = 4) ∧ 16 + 1 ≤ 16) ∧ ¬((4 = 1 ∨ 4 = 2 ∨ 4 = 4) ∧ 13 + 4 ≤ 16) ∧
    ¬((3 = 1 ∨ 3 = 2 ∨ 3 = 4) ∧ 0 + 3 ≤ 16) := by decide

theorem witness_FrameVectorPacksSixteenBytes : ramp.length = 16 ∧ dv3.length = 16 := by decide

theorem witness_PortsShowTheReportInDecodedOnly :
    dec.st = .decoded ∧ (∀ x ∈ [closed, aw15, short15, ioe15], x.st ≠ .decoded) := by decide

theorem witness_PartialBytesReachNoOutput : ∀ x ∈ [closed, aw15, short15, ioe15], x.st ≠ .decoded := by decide

/-- One byte at count 0; sixteen at count 0; the last byte at count 15; two of three bytes short. -/
theorem witness_ReadStoresItsBytesInOrder :
    ∀ p ∈ [(aw0, [0x01#8]), (aw0, dv3), (aw15, [0x0F#8]), (aw14, [0x0E#8])],
      (one p.1).insts[(one p.1).ch]? = some p.1 ∧ p.1.buf.wf = true ∧ p.1.st = .awaiting ∧ 1 ≤ p.2.length ∧
      p.1.cnt.val + p.2.length ≤ 16 := by decide

theorem witness_GroupingOfReadsMakesNoDifference :
    1 ≤ (dv3.take 1).length ∧ 1 ≤ (dv3.drop 1).length ∧ (dv3.take 1).length + (dv3.drop 1).length ≤ 16 := by decide

theorem witness_FrameOnFreshConnectionIsDecoded :
    (one aw0).insts[(one aw0).ch]? = some aw0 ∧ aw0.buf.wf = true ∧ aw0.st = .awaiting ∧ aw0.cnt.val = 0 ∧
    dv3.length = 16 := by decide

theorem witness_RecordSentIsRecordReported :
    (one aw0).insts[(one aw0).ch]? = some aw0 ∧ aw0.buf.wf = true ∧ aw0.st = .awaiting ∧ aw0.cnt.val = 0 := by decide

/-- Sixteen bytes in a FRAME; fifteen and an end; none and a failure. -/
theorem witness_ConnectionRunsToItsOutcome_ends :
    endsConnection ([Line.frame dv3].flatMap lineSteps) ∧
    endsConnection ([Line.read (dv3.take 15), .step .eos].flatMap lineSteps) ∧
    endsConnection ([Line.step .ioerr].flatMap lineSteps) :=
  ⟨⟨dv3, .inl ⟨rfl, rfl⟩⟩, ⟨dv3.take 15, .inr (.inl ⟨rfl, by decide⟩)⟩, ⟨[], .inr (.inr ⟨rfl, by decide⟩)⟩⟩

/-- The same with a CLOSE line at the end. -/
theorem witness_ConnectionRunsToItsOutcome_close :
    [Line.step .eos, .step (.close true)].flatMap lineSteps = [.eos] ++ [.close true] ∧
    endsConnection [.eos] := ⟨rfl, ⟨[], .inr (.inl ⟨rfl, by decide⟩)⟩⟩

/-- The same with a RESET line at the end, after an outcome, after fifteen bytes and after none. -/
theorem witness_ConnectionRunsToItsOutcome_reset :
    [Line.frame dv3, .step .reset].flatMap lineSteps = dv3.map .data ++ [.reset] ∧ endsConnection (dv3.map .data) ∧
    [Line.read (dv3.take 15), .step .reset].flatMap lineSteps = (dv3.take 15).map .data ++ [.reset] ∧
    (dv3.take 15).length ≤ 15 ∧
    [Line.step .reset].flatMap lineSteps = ([] : List Byte).map .data ++ [.reset] ∧
    [Line.frame dv3, .step .reset].all Line.wf = true :=
  ⟨rfl, ⟨dv3, .inl ⟨rfl, rfl⟩⟩, rfl, by decide, rfl, by decide⟩

/-- Fifteen bytes and nothing more; none at all. -/
theorem witness_ConnectionRunsToItsOutcome_pending :
    [Line.read (dv3.take 15)].flatMap lineSteps = (dv3.take 15).map .data ∧ (dv3.take 15).length ≤ 15 ∧
    ([] : List Line).flatMap lineSteps = ([] : List Byte).map .data ∧ ([] : List Byte).length ≤ 15 := by decide

/-- The instances and lines of all the clauses. -/
theorem witness_ConnectionRunsToItsOutcome :
    (∀ x ∈ [closed, closedErr], (one x).insts[(one x).ch]? = some x ∧ x.st = .closed) ∧
    (∀ x ∈ [dec, short15, ioe0],
      (one x).insts[(one x).ch]? = some x ∧ (x.st = .decoded ∨ x.st = .shortRead ∨ x.st = .ioError)) ∧
    (one aw15).insts[(one aw15).ch]? = some aw15 ∧ aw15.st = .awaiting ∧
    [Line.frame dv3].all Line.wf = true ∧ [Line.read (dv3.take 15), .step .eos].all Line.wf = true ∧
    [Line.step .eos, .step (.close true)].all Line.wf = true ∧ ([] : List Line).all Line.wf = true := by decide

/-- Every length that is refused, at its edge; every phase but AWAITING; one byte too many at counts 0, 14 and 15. -/
theorem witness_IllFormedLinesAreNoSteps :
    ([] : List Byte).length = 0 ∧ 17 ≤ (0x00#8 :: dv3).length ∧ (dv3.take 15).length ≠ 16 ∧
    [Line.read []].all Line.wf = false ∧
    (∀ x ∈ legal, (one x).insts[(one x).ch]? = some x ∧ x.Inv) ∧
    closed.st ≠ .awaiting ∧ dec.st ≠ .awaiting ∧ short0.st ≠ .awaiting ∧ ioe15.st ≠ .awaiting ∧
    16 < aw0.cnt.val + (0x00#8 :: dv3).length ∧ 16 < aw14.cnt.val + (dv3.take 3).length ∧
    16 < aw15.cnt.val + (dv3.take 2).length ∧ aw14.cnt.val ≠ 0 := by decide

/-- Seventeen bytes in a CONN, at its start and after a whole connection; lines of a labelled trace that are refused. -/
theorem witness_IllFormedLinesAreNoSteps_more :
    [Line.frame dv3, .read [0x00#8]].flatMap lineSteps = [] ++ (dv3 ++ [0x00#8]).map .data ++ [] ∧
    [Line.step .eos, .step (.close true), .step .openConn, .read dv3, .read [0x00#8], .step .eos].flatMap lineSteps =
      [.eos, .close true, .openConn] ++ (dv3 ++ [0x00#8]).map .data ++ [.eos] ∧
    17 ≤ (dv3 ++ [0x00#8]).length ∧ TraceLine.wf (.line (.read [])) = false ∧
    TraceLine.wf (.line (.frame (dv3.take 15))) = false ∧ TraceLine.wf (.conn [.read []]) = false := by decide

/-- Seventeen bytes of ch0 after its OPEN, with a line of ch1 between them. -/
theorem witness_NoTraceOverfillsAFrame :
    (∀ x ∈ [closed, aw0, dec], (two x aw14).insts[0]? = some x ∧ x.Inv) ∧
    stepsOf 0 [(0, .line (.step .openConn)), (0, .line (.frame dv3)), (1, .line (.step .eos)), (0, .line (.read [0x00#8])),
        (0, .line (.step .eos))] =
      [.openConn] ++ (dv3 ++ [0x00#8]).map .data ++ [.eos] ∧
    stepsOf 0 [(0, .conn [.frame dv3]), (0, .line (.read [0x00#8]))] =
      [.openConn] ++ (dv3 ++ [0x00#8]).map .data ++ [] ∧
    17 ≤ (dv3 ++ [0x00#8]).length := by decide

/-- A short read with a failed close, then a connection that stays open: well-formed, and it runs. -/
theorem witness_ConnectionsFollowOneAnother :
    [Line.step .eos, .step (.close true)].all Line.wf = true ∧ [Line.read [0x01#8]].all Line.wf = true ∧
    sel (exec (.conn ([.step .eos, .step (.close true)] ++ .step .openConn :: [.read [0x01#8]])) (one closed)) =
      some (inst .awaiting 1 [0x01#8] false) := by decide

/-- A whole frame and a short read, on two instances, neither fresh from reset. -/
theorem witness_TraceOfConnectionsRuns :
    (two closed closedErr).insts[0]? = some closed ∧ (two closed closedErr).insts[1]? = some closedErr ∧
    closed.st = .closed ∧ closedErr.st = .closed ∧
    [Line.frame dv3].all Line.wf = true ∧ [Line.step .eos].all Line.wf = true ∧
    all (runTrace [(0, .conn [.frame dv3]), (1, .conn [.step .eos]), (0, .conn [.step .eos])] (two closed closedErr)) =
      some [closed, closed] := by decide

theorem witness_TraceOfConnectionsRuns_ends :
    endsConnection ([Line.frame dv3].flatMap lineSteps) ∧ endsConnection ([Line.step .eos].flatMap lineSteps) :=
  ⟨⟨dv3, .inl ⟨rfl, rfl⟩⟩, ⟨[], .inr (.inl ⟨rfl, by decide⟩)⟩⟩

/-- A trace of ch0 alone, a CONN and the start of the next connection, in a machine of two instances. -/
theorem witness_TraceTouchesOnlyItsInstances :
    all (runTrace [(0, .conn [.step .eos]), (0, .line (.step .openConn)), (0, .line (.read [0x01#8]))] (two closed aw15)) =
      some [inst .awaiting 1 [0x01#8] false, aw15] ∧
    ∀ l, (1, l) ∉ [(0, TraceLine.conn [.step .eos]), (0, .line (.step .openConn)), (0, .line (.read [0x01#8]))] := by
  refine ⟨by decide, ?_⟩
  intro l
  simp

theorem witness_DecodeOfEncodeIsTheInstruction :
    Instr.wf (.data 0xFF#8) = true ∧ encode (.data 0xFF#8) = some (.ev10, [0xFF#8, 0x00#8]) ∧
    Instr.wf (.decode dv3) = true ∧ encode (.decode dv3) = some (.fr128 .whole, dv3) ∧
    Instr.wf (.fldStatus 0x0F0E0D0C0B0A09080706050403020100#128) = true ∧
    encode (.fldStatus 0x0F0E0D0C0B0A09080706050403020100#128) = some (.fr128 .status, ramp) := by decide

theorem witness_EventWordsDecodeByMaskAndMatch :
    0x02A#10 &&& 0x300#10 = 0x000#10 ∧ 0x15A#10 &&& 0x300#10 = 0x100#10 ∧ 0x2A5#10 &&& 0x300#10 = 0x200#10 ∧
    0x3FF#10 &&& 0x300#10 = 0x300#10 := by decide

/-- An accepted event of each kind, and a frame with a reader. -/
theorem witness_StepRunsTheDecodedInstruction :
    (∀ p ∈ [(aw15, 0#2, 0x0F#8, Instr.data 0x0F#8), (aw0, 1#2, 0x5A#8, .eos), (aw0, 2#2, 0xA5#8, .ioerr),
        (closed, 3#2, 0xFF#8, .openConn)],
      ((one p.1).present (.edge 0 (pins p.2.1 p.2.2.1))).sched = [.edge 0 (pins p.2.1 p.2.2.1)] ∧
      terminal p.1.st = false ∧ inReadyPort p.1 p.2.1 = true ∧ (pins p.2.1 p.2.2.1).inValid = true ∧
      (pins p.2.1 p.2.2.1).rst = false ∧
      decode .ev10 [p.2.2.1, p.2.1.setWidth 8] = .ok (p.2.2.2, [])) ∧
    ((one aw0).present (.view .status dv6)).sched = [.view .status dv6] ∧
    decode (.fr128 .status) (bytesOfFrame dv6) = .ok (.fldStatus dv6, []) := by decide

/-- Each of the seven outcomes of an edge. -/
theorem witness_EdgeTakesOneOfFourInPriority :
    ∀ p ∈ [(dec, { pins 3#2 0x00#8 with rst := true }, closed), (dec, { pins 0#2 0x00#8 with closeFail := true }, closedErr),
        (closedErr, pins 3#2 0x00#8, aw0), (aw15, pins 0#2 0x0F#8, dec), (aw15, pins 1#2 0x00#8, short15),
        (aw15, pins 2#2 0x00#8, ioe15), (aw15, pins 3#2 0x00#8, aw15),
        (aw15, { pins 0#2 0x0F#8 with inValid := false }, aw15)],
      ((one p.1).present (.edge 0 p.2.1)).sched = [.edge 0 p.2.1] ∧
      ((one p.1).present (.edge 0 p.2.1)).insts[0]? = some p.1 ∧
      sel (step ((one p.1).present (.edge 0 p.2.1))) = some p.2.2 := by decide

/-- Beside a terminal instance too. -/
theorem witness_StalledInstanceWaitsForEver :
    ∀ x ∈ [aw0, aw15, closed], (one x).sched = [] ∧ (one x).insts[0]? = some x ∧
      (two dec x).sched = [] ∧ (two dec x).insts[1]? = some x ∧ (x.st = .awaiting ∨ x.st = .closed) := by decide

/-- Two instances in a terminal phase, the selected one not among them. -/
theorem witness_SilenceClosesEveryTerminalPhase :
    ({ insts := [aw15, dec, short0], ch := 0, sched := [], draws := 0, result := none } : State).sched = [] ∧
    [aw15, dec, short0].countP (fun x => terminal x.st) = 2 := by decide

theorem witness_TerminalPhaseLastsOneStep :
    ∀ x ∈ [dec, short0, ioe15],
      ((one x).present (.edge 0 (pins 0#2 0x99#8))).sched = [.edge 0 (pins 0#2 0x99#8)] ∧
      ((one x).present (.edge 0 (pins 0#2 0x99#8))).insts[0]? = some x ∧ (pins 0#2 0x99#8).rst = false ∧
      (one x).sched = [] ∧ (one x).insts[(one x).ch]? = some x ∧ terminal x.st = true := by decide

/-- Silence with a second instance in a terminal phase: the selected one is the one that closes. -/
theorem witness_TerminalPhaseLastsOneStep_silence :
    ∀ x ∈ [dec, short0, ioe15], ∀ y ∈ [dec, short0, ioe15],
      (two x y).sched = [] ∧ (two x y).insts[(two x y).ch]? = some x ∧ terminal x.st = true ∧
      (two x y).insts[1]? = some y ∧ terminal y.st = true ∧ pendingClose (two x y) = some 0 := by decide

theorem witness_CloseFailIsIgnoredElsewhere :
    (one dec).insts[0]? = some dec ∧ ({ pins 0#2 0x00#8 with rst := true } : Pins).rst = true ∧
    (one aw0).insts[0]? = some aw0 ∧ terminal aw0.st = false := by decide

/-- Each of the four grounds: another kind; rst; nothing presented; every phase but AWAITING. -/
theorem witness_DataBitsOfOtherEventsAreIgnored :
    (∀ k ∈ [1#2, 2#2, 3#2], (pins k 0x5A#8).inKind ≠ 0#2) ∧
    ({ pins 0#2 0x5A#8 with rst := true } : Pins).rst = true ∧
    ({ pins 0#2 0x5A#8 with inValid := false } : Pins).inValid = false ∧
    (∀ x ∈ [closed, dec, short0, ioe15], (one x).insts[0]? = some x ∧ x.st ≠ .awaiting) := by decide

/-- Every row's word, in an instance that must be made ready for it and in one that need not be. -/
theorem witness_PresentedWordRunsNext :
    (∀ x ∈ [closed, aw15, dec], (one x).insts[(one x).ch]? = some x ∧ x.Inv) ∧
    decodeTableWord 16 0x02A = some (.data 0x2A#8) ∧ decodeTableWord 16 0x100 = some .eos ∧
    decodeTableWord 16 0x200 = some .ioerr ∧ decodeTableWord 16 0x300 = some .openConn ∧
    decodeTableWord 8 0x80 = some (.fldDeviceId 0x80#128) := by decide

/-- A step of one instance beside another, for an instruction of each shape. -/
theorem witness_InstructionsLeaveOtherInstancesAlone :
    all (exec .eos (two aw15 aw14)) = some [short15, aw14] ∧ all (exec (.frame ramp) (two aw0 dec)) = some [dec, dec] ∧
    all (exec (.fldStatus dv6) (two aw0 dec)) = some [aw0, dec] ∧
    all (exec (.conn [.step .eos, .step (.close true)]) (two closed aw14)) = some [closedErr, aw14] := by decide

theorem witness_EdgesLeaveOtherInstancesAlone :
    ((two aw15 aw14).present (.edge 1 (pins 1#2 0x00#8))).sched = [.edge 1 (pins 1#2 0x00#8)] ∧
    all (step ((two aw15 aw14).present (.edge 1 (pins 1#2 0x00#8)))) =
      some [aw15, inst .shortRead 14 (ramp.take 14) false] := by decide

theorem witness_EdgesOfTwoInstancesCommute :
    (0 : Nat) ≠ 1 ∧
    ∃ t, Sys2Proof.core.run 2
      { two aw15 closed with sched := [.edge 0 (pins 0#2 0x0F#8), .edge 1 (pins 3#2 0x00#8)] } = .next t :=
  ⟨by decide, _, rfl⟩

theorem witness_OwnStateAndPinsDecideTheNextState :
    ((two aw15 aw14).present (.edge 0 (pins 0#2 0x0F#8))).insts[0]? =
      ((two aw15 dec).present (.edge 0 (pins 0#2 0x0F#8))).insts[0]? ∧
    all (step ((two aw15 aw14).present (.edge 0 (pins 0#2 0x0F#8)))) = some [dec, aw14] ∧
    all (step ((two aw15 dec).present (.edge 0 (pins 0#2 0x0F#8)))) = some [dec, dec] := by decide

/-- Two connections, the second still open. -/
theorem witness_EveryConnectionIsClosedExactlyOnce :
    instRun [.openConn, .eos, .close true, .openConn] closed = .ok aw0 ∧
    ([.openConn, .eos, .close true, .openConn] : List Basic).all (fun b => !isResetStep b) = true := ⟨rfl, by decide⟩

theorem witness_ByteValuesDoNotSteerTheMachine :
    [0x0F#8].length = [0xFF#8].length ∧ aw15.st = (inst .awaiting 15 [0xAA#8] true).st ∧
    aw15.cnt = (inst .awaiting 15 [0xAA#8] true).cnt ∧ (instRun ([0x0F#8].map .data) aw15).toOption = some dec := by decide

end Sys2Proof.Tests
end

section
/-! PROOFS of the family of the state: legality (R24), the frame of every instruction (R26, R91), `close_err` (R18) and the
output ports (R20, R22). -/

namespace Sys2Proof.Machine

open Relation (ReflTransGen)

/-! ### What every instruction does: steps of the selected instance, or a reading -/

/-- The selected instance takes one of the six steps of R71, and nothing else of the machine changes. -/
def SelectedStep (s t : State) : Prop := ∃ b, onInst (basicStep b) s = .next t

theorem onInst_selectedStep {b : Basic} {s t : State} (h : onInst (basicStep b) s = .next t) :
    ReflTransGen SelectedStep s t :=
  .single ⟨b, h⟩

theorem forceClose_selectedSteps {s t : State} (h : forceClose s = .next t) : ReflTransGen SelectedStep s t := by
  obtain ⟨x, hx, ⟨-, rfl⟩ | ⟨ht, rfl⟩⟩ := forceClose_next.mp h
  · exact .refl
  · exact onInst_selectedStep (b := .close false) (onInst_of hx (stepClose_ok.mpr ⟨ht, rfl⟩))

theorem runLine_selectedSteps {b : Basic} {s t : State} (h : runLine b s = .next t) :
    ReflTransGen SelectedStep s t := by
  obtain h | ⟨s', hc, h⟩ := runLine_next h
  · exact onInst_selectedStep h
  · exact (forceClose_selectedSteps hc).trans (onInst_selectedStep h)

theorem runLines_selectedSteps {bs : List Basic} {s t : State} (h : runLines bs s = .next t) :
    ReflTransGen SelectedStep s t := by
  induction bs generalizing s with
  | nil =>
    cases h
    exact .refl
  | cons b bs ih =>
    obtain ⟨s', hb, h⟩ := runLines_cons_next.mp h
    exact (runLine_selectedSteps hb).trans (ih h)

theorem runTraceLine_selectedSteps {l : TraceLine} {s t : State} (h : runTraceLine l s = .next t) :
    ReflTransGen SelectedStep s t := by
  obtain ⟨-, h⟩ := runTraceLine_next.mp h
  cases l with
  | line l => exact runLines_selectedSteps h
  | conn lines =>
    obtain ⟨s', hl, hc⟩ := h
    exact (runLines_selectedSteps hl).trans (forceClose_selectedSteps hc)

/-- The pseudo-instructions are the lines of a trace (R49). -/
theorem exec_read (bytes : List Byte) (s : State) : exec (.read bytes) s = runTraceLine (.line (.read bytes)) s := rfl
theorem exec_frame (bytes : List Byte) (s : State) : exec (.frame bytes) s = runTraceLine (.line (.frame bytes)) s := rfl
theorem exec_record (r : Record) (s : State) : exec (.record r) s = runTraceLine (.line (.record r)) s := rfl
theorem exec_conn (lines : List Line) (s : State) : exec (.conn lines) s = runTraceLine (.conn lines) s := rfl

/-- What Decode can do: it leaves its value in the result. -/
theorem exec_decode_next {bytes : List Byte} {s t : State} (h : exec (.decode bytes) s = .next t) :
    ∃ r, t = s.setResult r := by
  simp only [exec, execDecode] at h
  split at h
  · cases h
    exact ⟨_, rfl⟩
  · cases h

/-- What an instruction can do: it leaves a reading in the result and no more, or the selected instance takes steps. -/
theorem exec_next {i : Instr} {s t : State} (h : exec i s = .next t) :
    (∃ r, t = s.setResult r) ∨ ReflTransGen SelectedStep s t := by
  cases i with
  | data b => exact .inr (onInst_selectedStep (b := .data b) h)
  | eos => exact .inr (onInst_selectedStep (b := .eos) h)
  | ioerr => exact .inr (onInst_selectedStep (b := .ioerr) h)
  | openConn => exact .inr (onInst_selectedStep (b := .openConn) h)
  | close cf => exact .inr (onInst_selectedStep (b := .close cf) h)
  | reset => exact .inr (onInst_selectedStep (b := .reset) h)
  | decode bytes => exact .inl (exec_decode_next h)
  | fldDeviceId | fldSequenceNum | fldTimestamp | fldTemperature | fldHumidity | fldStatus =>
    cases h
    exact .inl ⟨_, rfl⟩
  | read bytes => exact .inr (runTraceLine_selectedSteps (exec_read bytes s ▸ h))
  | frame bytes => exact .inr (runTraceLine_selectedSteps (exec_frame bytes s ▸ h))
  | record r => exact .inr (runTraceLine_selectedSteps (exec_record r s ▸ h))
  | conn lines => exact .inr (runTraceLine_selectedSteps (exec_conn lines s ▸ h))

/-! ### What one machine step does -/

/-- What a step at an edge can do: the edge's instance exists and is selected, and the state holds or the instruction that
the edge selects runs. -/
theorem step_edge_next {s t : State} {k : Nat} {pins : Pins} {rest : List Stim} (hs : s.sched = .edge k pins :: rest)
    (h : step s = .next t) :
    k < s.insts.length ∧ (t = s.takeEdge k rest ∨ ∃ i, exec i (s.takeEdge k rest) = .next t) := by
  cases hx : s.insts[k]? with
  | none =>
    rw [step_edge_noSuch hs hx] at h
    cases h
  | some x =>
    refine ⟨(List.getElem?_eq_some_iff.mp hx).1, ?_⟩
    rw [step_edge hs hx] at h
    cases hi : edgeInstr pins x with
    | none =>
      rw [hi] at h
      cases h
      exact .inl rfl
    | some i =>
      rw [hi] at h
      exact .inr ⟨i, h⟩

/-- What a step can do: the state holds, or one instruction runs, but for the stimulus taken; the instances are those before,
and the selected one is as before or exists. -/
theorem step_next {s t : State} (h : step s = .next t) :
    ∃ s', s'.insts = s.insts ∧ (s'.ch = s.ch ∨ s'.ch < s.insts.length) ∧
      (t = s' ∨ ∃ i, exec i s' = .next t) := by
  cases hs : s.sched with
  | nil =>
    rw [step_silent hs] at h
    cases hp : pendingClose s with
    | none =>
      rw [hp] at h
      cases h
      exact ⟨s, rfl, .inl rfl, .inl rfl⟩
    | some k =>
      obtain ⟨x, hx, -⟩ := pendingClose_some hp
      rw [hp] at h
      exact ⟨s.countDraw.takeEdge k [], rfl, .inr (List.getElem?_eq_some_iff.mp hx).1, .inr ⟨_, h⟩⟩
  | cons e rest =>
    cases e with
    | edge k pins =>
      obtain ⟨hk, ht⟩ := step_edge_next hs h
      exact ⟨s.takeEdge k rest, rfl, .inr hk, ht⟩
    | view v f => exact ⟨s.takeView rest, rfl, .inl rfl, .inr ⟨_, (step_view hs).symm.trans h⟩⟩

/-! ### The frame (R26, R88, R91) -/

/-- The two states differ at most in the selected instance and in the model's counters and readings. -/
structure SameButSelected (s t : State) : Prop where
  others : ∀ k, k ≠ s.ch → t.insts[k]? = s.insts[k]?
  length : t.insts.length = s.insts.length
  ch : t.ch = s.ch
  sched : t.sched = s.sched

theorem SameButSelected.trans {s t u : State} (h : SameButSelected s t) (h' : SameButSelected t u) :
    SameButSelected s u where
  others k hk := (h'.others k (h.ch ▸ hk)).trans (h.others k hk)
  length := h'.length.trans h.length
  ch := h'.ch.trans h.ch
  sched := h'.sched.trans h.sched

theorem setInst_sameButSelected (s : State) (y : Inst) : SameButSelected s (s.setInst y) where
  others _ hk := setInst_other hk y
  length := by simp
  ch := rfl
  sched := rfl

theorem selectedSteps_sameButSelected {s t : State} (h : ReflTransGen SelectedStep s t) : SameButSelected s t := by
  induction h with
  | refl => exact ⟨fun _ _ => rfl, rfl, rfl, rfl⟩
  | tail _ hstep ih =>
    obtain ⟨b, hb⟩ := hstep
    obtain ⟨-, y, -, -, rfl⟩ := onInst_next.mp hb
    exact ih.trans (setInst_sameButSelected _ y)

theorem exec_sameButSelected {i : Instr} {s t : State} (h : exec i s = .next t) : SameButSelected s t := by
  obtain ⟨r, rfl⟩ | h := exec_next h
  · exact ⟨fun _ _ => rfl, rfl, rfl, rfl⟩
  · exact selectedSteps_sameButSelected h

/-- Settles O47: every instruction's next state is one that only steps of the selected instance, or a reading, lead to. -/
theorem instructionsLeaveOtherInstancesAlone : Obligations.InstructionsLeaveOtherInstancesAlone := by
  intro i s t h
  obtain ⟨others, length, ch, sched⟩ := exec_sameButSelected h
  exact ⟨others, length, ch, sched⟩

/-- Settles O48: the instruction an edge selects runs with the edge's instance selected. -/
theorem edgesLeaveOtherInstancesAlone : Obligations.EdgesLeaveOtherInstancesAlone := by
  intro s t k pins rest hs h
  obtain ⟨-, rfl | ⟨i, hi⟩⟩ := step_edge_next hs h
  · exact ⟨fun _ _ => rfl, rfl, rfl⟩
  · obtain ⟨others, length, -, sched⟩ := exec_sameButSelected hi
    exact ⟨others, length, sched⟩

/-- Settles O35, by induction on the lines of the trace: each has the frame of the instance it names. -/
theorem traceTouchesOnlyItsInstances : Obligations.TraceTouchesOnlyItsInstances := by
  intro t
  induction t with
  | nil =>
    intro s u k h _
    cases h
    rfl
  | cons e t ih =>
    obtain ⟨j, l⟩ := e
    intro s u k h hk
    obtain ⟨s', hl, ht⟩ := runTrace_cons_next.mp h
    have hkj : k ≠ j := by
      rintro rfl
      exact hk l List.mem_cons_self
    have hline : s'.insts[k]? = s.insts[k]? :=
      (selectedSteps_sameButSelected (runTraceLine_selectedSteps hl)).others k hkj
    exact (ih s' u k ht fun l' hmem => hk l' (List.mem_cons_of_mem _ hmem)).trans hline

/-! ### Legality (R24) -/

/-- A cleared instance in CLOSED is legal, whatever its flag. -/
theorem cleared_closed_inv (ce : Bool) : Inst.Inv { buf := memClear, cnt := 0, st := .closed, closeErr := ce } := by
  simp [Inst.Inv, Inst.zeroFrom, memClear_wf]

/-- A cleared instance in AWAITING is legal, if its flag is clear. -/
theorem cleared_awaiting_inv : Inst.Inv { buf := memClear, cnt := 0, st := .awaiting, closeErr := false } := by
  simp [Inst.Inv, Inst.zeroFrom, memClear_wf]

/-- DATA keeps the invariant: the byte goes to the offset that the count leaves behind. -/
theorem stepData_inv {b : Byte} {x y : Inst} (hx : x.Inv) (h : stepData b x = .ok y) : y.Inv := by
  obtain ⟨hst, hlt, rfl⟩ := stepData_ok.mp h
  obtain ⟨hwf, -, -, -, -, -, hzero, herr⟩ := hx
  have hcnt : (x.cnt + 1).val = x.cnt.val + 1 := Fin.val_add_one_of_lt (Fin.lt_def.mpr hlt)
  have hclear : x.closeErr = false := by simpa [hst] using herr
  have hzero' : ∀ i : Fin 16, x.cnt.val + 1 ≤ i.val → memByte (memPut x.buf x.cnt.val b) i.val = 0x00#8 := by
    intro i hi
    rw [memByte_memPut_other _ _ (by omega)]
    exact hzero i (by omega)
  by_cases hfull : x.cnt.val + 1 = 16
  · simp [Inst.Inv, Inst.zeroFrom, hfull, hcnt, hclear, memPut_wf hlt b hwf]
  · have hle : x.cnt.val + 1 ≤ 15 := by omega
    simpa [Inst.Inv, Inst.zeroFrom, hfull, hcnt, hclear, hle, memPut_wf hlt b hwf] using hzero'

/-- From AWAITING the other two outcomes keep the invariant: they change the phase alone. -/
theorem inv_of_awaiting {x : Inst} {st : Phase} (hx : x.Inv) (ha : x.st = .awaiting)
    (hst : st = .shortRead ∨ st = .ioError) : Inst.Inv { x with st := st } := by
  obtain ⟨hwf, -, hcnt, -, -, -, hzero, herr⟩ := hx
  have hclear : x.closeErr = false := by simpa [ha] using herr
  obtain rfl | rfl := hst <;> simpa [Inst.Inv, hwf, hcnt ha, hclear] using hzero

/-- Every step of an instance keeps its invariant. -/
theorem basicStep_inv {b : Basic} {x y : Inst} (hx : x.Inv) (h : basicStep b x = .ok y) : y.Inv := by
  cases b with
  | openConn =>
    obtain ⟨-, rfl⟩ := stepOpen_ok.mp h
    exact cleared_awaiting_inv
  | data b => exact stepData_inv hx h
  | eos =>
    obtain ⟨ha, rfl⟩ := stepEos_ok.mp h
    exact inv_of_awaiting hx ha (.inl rfl)
  | ioerr =>
    obtain ⟨ha, rfl⟩ := stepIoerr_ok.mp h
    exact inv_of_awaiting hx ha (.inr rfl)
  | close cf =>
    obtain ⟨-, rfl⟩ := stepClose_ok.mp h
    exact cleared_closed_inv cf
  | reset =>
    obtain rfl := (stepReset_ok (x := x)).mp h
    exact cleared_closed_inv false

theorem selected_inv {s : State} {x : Inst} (hs : s.Inv) (hx : s.insts[s.ch]? = some x) : x.Inv := by
  obtain ⟨hall, -⟩ := hs
  exact hall x (List.mem_of_getElem? hx)

theorem setInst_inv {s : State} {y : Inst} (hs : s.Inv) (hy : y.Inv) : (s.setInst y).Inv := by
  obtain ⟨hall, hch⟩ := hs
  refine ⟨fun z hz => ?_, by simpa using hch⟩
  obtain hz | rfl := List.mem_or_eq_of_mem_set hz
  · exact hall z hz
  · exact hy

theorem selectedSteps_inv {s t : State} (hs : s.Inv) (h : ReflTransGen SelectedStep s t) : t.Inv := by
  induction h with
  | refl => exact hs
  | tail _ hstep ih =>
    obtain ⟨b, hb⟩ := hstep
    obtain ⟨x, y, hx, hy, rfl⟩ := onInst_next.mp hb
    exact setInst_inv ih (basicStep_inv (selected_inv ih hx) hy)

/-- Settles O5: an instruction is steps of the selected instance, or a reading. -/
theorem everyInstructionKeepsLegality : Obligations.EveryInstructionKeepsLegality := by
  intro i s t hs h
  obtain ⟨r, rfl⟩ | h := exec_next h
  · exact hs
  · exact selectedSteps_inv hs h

/-- Settles O4: the state in which a step runs its instruction is legal, and every instruction keeps legality. -/
theorem everyStepKeepsLegality : Obligations.EveryStepKeepsLegality := by
  intro s t hs h
  obtain ⟨hall, hsel⟩ := hs
  obtain ⟨s', hinsts, hch, ht⟩ := step_next h
  have hs' : s'.Inv := by
    refine ⟨hinsts ▸ hall, ?_⟩
    rw [hinsts]
    obtain hch | hch := hch
    · rwa [hch]
    · exact hch
  obtain rfl | ⟨i, hi⟩ := ht
  · exact hs'
  · exact everyInstructionKeepsLegality i s' t hs' hi

/-! ### The state after reset (R25) -/

theorem reset_inst {x : Inst} (h : x ∈ State.reset.insts) : x = Inst.reset := List.eq_of_mem_replicate h

@[simp] theorem reset_insts_length : State.reset.insts.length = Config.nchan := List.length_replicate

/-- Settles O3: every instance after reset is a cleared one in CLOSED, and there is at least one (R7). -/
theorem resetStateIsLegal : Obligations.ResetStateIsLegal := by
  refine ⟨fun x hx => ?_, ?_⟩
  · rw [reset_inst hx]
    exact cleared_closed_inv false
  · rw [reset_insts_length]
    exact Nat.succ_pos _

/-- In CLOSED the only steps enabled are OPEN and RESET (R65). -/
theorem basicStep_of_closed {b : Basic} {x y : Inst} (hst : x.st = .closed) (h : basicStep b x = .ok y) :
    b = .openConn ∨ b = .reset := by
  have hna : x.st ≠ .awaiting := by simp [hst]
  cases b with
  | openConn => exact .inl rfl
  | data b => exact absurd (stepData_ok.mp h).1 hna
  | eos => exact absurd (stepEos_ok.mp h).1 hna
  | ioerr => exact absurd (stepIoerr_ok.mp h).1 hna
  | close cf =>
    obtain ⟨ht, -⟩ := stepClose_ok.mp h
    rw [hst] at ht
    cases ht
  | reset => exact .inr rfl

/-- The port in_ready in CLOSED: OPEN alone is acceptable (R72). -/
theorem inReadyPort_of_closed {x : Inst} (hst : x.st = .closed) (kind : BitVec 2) :
    inReadyPort x kind = decide (kind = 3#2) := by
  rw [inReadyPort, hst]
  revert kind
  decide

/-- Settles O1: every instance after reset is `Inst.reset`. -/
theorem resetLeavesTheStatedValues : Obligations.ResetLeavesTheStatedValues := by
  refine ⟨reset_insts_length, Nat.succ_pos _, fun x hx => ?_⟩
  obtain rfl := reset_inst hx
  exact ⟨rfl, rfl, fun _ => rfl, rfl, inReadyPort_of_closed rfl, rfl, rfl, rfl, rfl, rfl, rfl, rfl, rfl, rfl,
    fun b y => basicStep_of_closed rfl⟩

/-! ### The flag close_err (R18) -/

/-- What a step leaves in `close_err`, from what it was before. -/
def closeErrAfter : Basic → Bool → Bool
  | .close cf, _ => cf
  | .openConn, _ => false
  | .reset, _ => false
  | .data _, ce => ce
  | .eos, ce => ce
  | .ioerr, ce => ce

/-- No step reads `close_err`: from another value of the flag it leads to the same state, but for the flag. -/
theorem basicStep_withCloseErr {b : Basic} {x y : Inst} (h : basicStep b x = .ok y) (c : Bool) :
    basicStep b { x with closeErr := c } = .ok { y with closeErr := closeErrAfter b c } := by
  cases b with
  | openConn =>
    obtain ⟨hst, rfl⟩ := stepOpen_ok.mp h
    exact stepOpen_ok.mpr ⟨hst, rfl⟩
  | data b =>
    obtain ⟨hst, hlt, rfl⟩ := stepData_ok.mp h
    exact stepData_ok.mpr ⟨hst, hlt, rfl⟩
  | eos =>
    obtain ⟨hst, rfl⟩ := stepEos_ok.mp h
    exact stepEos_ok.mpr ⟨hst, rfl⟩
  | ioerr =>
    obtain ⟨hst, rfl⟩ := stepIoerr_ok.mp h
    exact stepIoerr_ok.mpr ⟨hst, rfl⟩
  | close cf =>
    obtain ⟨ht, rfl⟩ := stepClose_ok.mp h
    exact stepClose_ok.mpr ⟨ht, rfl⟩
  | reset =>
    obtain rfl := (stepReset_ok (x := x)).mp h
    exact (stepReset_ok (x := x)).mpr rfl

/-- What a step writes to `close_err`. -/
theorem basicStep_closeErr {b : Basic} {x y : Inst} (h : basicStep b x = .ok y) :
    y.closeErr = closeErrAfter b x.closeErr :=
  congrArg Inst.closeErr (Except.ok.inj (h.symm.trans (basicStep_withCloseErr h x.closeErr)))

/-- The outputs show `close_err` at its own port and nowhere else. -/
theorem outputs_withCloseErr (x : Inst) (c : Bool) :
    outputs { x with closeErr := c } = { outputs x with closeErr := c } := rfl

/-- Settles O15: a step from another value of the flag leads to the same state but for the flag. -/
theorem closeErrWrittenByThreeAndReadByNone : Obligations.CloseErrWrittenByThreeAndReadByNone := by
  refine ⟨outputs_withCloseErr, fun b x y h => ⟨?_, rfl, fun c => ?_⟩⟩
  · rw [basicStep_closeErr h]
    cases b <;> rfl
  · exact ⟨_, basicStep_withCloseErr h c, rfl, rfl, rfl⟩

/-! ### The report ports and the STATUS view (R20, R22) -/

theorem report_of_decoded {x : Inst} (h : x.st = .decoded) :
    report x = some (decodeFrame (frameOf x.buf), frameOf x.buf) := by
  rw [report, if_pos h]

theorem report_of_not_decoded {x : Inst} (h : x.st ≠ .decoded) : report x = none := by
  rw [report, if_neg h]

theorem shownRecord_of_decoded {x : Inst} (h : x.st = .decoded) : shownRecord x = decodeFrame (frameOf x.buf) := by
  rw [shownRecord, report_of_decoded h]

theorem shownRaw_of_decoded {x : Inst} (h : x.st = .decoded) : shownRaw x = frameOf x.buf := by
  rw [shownRaw, report_of_decoded h]

theorem shownRecord_of_not_decoded {x : Inst} (h : x.st ≠ .decoded) : shownRecord x = zeroRecord := by
  rw [shownRecord, report_of_not_decoded h]

theorem shownRaw_of_not_decoded {x : Inst} (h : x.st ≠ .decoded) : shownRaw x = 0#128 := by
  rw [shownRaw, report_of_not_decoded h]

/-- The slice of the frame vector at some offsets is the bytes there, assembled (R38, R53 to R58). -/
theorem frameOf_extractLsb' (m : Memory) (a n : Nat) (h : a + n ≤ 16) :
    (frameOf m).extractLsb' (8 * a) (8 * n) = memAssemble m a n := by
  apply BitVec.eq_of_getLsbD_eq
  intro j hj
  have hdiv : (8 * a + j) / 8 = a + j / 8 := by omega
  have hmod : (8 * a + j) % 8 = j % 8 := by omega
  rw [BitVec.getLsbD_extractLsb', frameOf_getLsbD _ _ (by omega), memAssemble_getLsbD _ _ _ _ hj, hdiv, hmod]
  simp [hj]

theorem memAssemble_one (m : Memory) (a : Nat) : memAssemble m a 1 = memByte m a :=
  BitVec.zero_width_append _ _

theorem memAssemble_two (m : Memory) (a : Nat) : memAssemble m a 2 = memByte m (a + 1) ++ memByte m a :=
  congrArg (· ++ memByte m a) (memAssemble_one m (a + 1))

theorem memAssemble_four (m : Memory) (a : Nat) :
    memAssemble m a 4 = memByte m (a + 3) ++ memByte m (a + 2) ++ memByte m (a + 1) ++ memByte m a :=
  congrArg (· ++ memByte m (a + 1) ++ memByte m a) (memAssemble_two m (a + 2))

/-- Each extractor of the accumulator's frame vector is the bytes at its field's offsets (R53 to R58). -/
theorem fldDeviceId_frameOf (m : Memory) : fldDeviceId (frameOf m) = memAssemble m 0 1 :=
  frameOf_extractLsb' m 0 1 (by decide)
theorem fldSequenceNum_frameOf (m : Memory) : fldSequenceNum (frameOf m) = memAssemble m 1 2 :=
  frameOf_extractLsb' m 1 2 (by decide)
theorem fldTimestamp_frameOf (m : Memory) : fldTimestamp (frameOf m) = memAssemble m 3 4 :=
  frameOf_extractLsb' m 3 4 (by decide)
theorem fldTemperature_frameOf (m : Memory) : fldTemperature (frameOf m) = memAssemble m 7 4 :=
  frameOf_extractLsb' m 7 4 (by decide)
theorem fldHumidity_frameOf (m : Memory) : fldHumidity (frameOf m) = memAssemble m 11 4 :=
  frameOf_extractLsb' m 11 4 (by decide)
theorem fldStatus_frameOf (m : Memory) : fldStatus (frameOf m) = memAssemble m 15 1 :=
  frameOf_extractLsb' m 15 1 (by decide)

/-- Decode of the accumulator's frame vector: every field is its bytes, lowest offset least significant (R42). -/
theorem decodeFrame_frameOf (m : Memory) :
    decodeFrame (frameOf m) =
      { deviceId := memByte m 0
        sequenceNum := memByte m 2 ++ memByte m 1
        timestamp := memByte m 6 ++ memByte m 5 ++ memByte m 4 ++ memByte m 3
        temperature := memByte m 10 ++ memByte m 9 ++ memByte m 8 ++ memByte m 7
        humidity := memByte m 14 ++ memByte m 13 ++ memByte m 12 ++ memByte m 11
        status := memByte m 15 } := by
  rw [decodeFrame, fldDeviceId_frameOf, fldSequenceNum_frameOf, fldTimestamp_frameOf, fldTemperature_frameOf,
    fldHumidity_frameOf, fldStatus_frameOf, memAssemble_one, memAssemble_two, memAssemble_four, memAssemble_four,
    memAssemble_four, memAssemble_one]

theorem terminal_iff {st : Phase} : terminal st = true ↔ st = .decoded ∨ st = .shortRead ∨ st = .ioError := by
  cases st <;> simp [terminal]

/-- Settles O25: the ports show `report`, whose record is the fields' bytes side by side. -/
theorem portsShowTheReportInDecodedOnly : Obligations.PortsShowTheReportInDecodedOnly := by
  intro x
  refine ⟨decide_eq_true_iff, terminal_iff, fun h => ?_, fun h => ?_⟩
  · rw [outputs, (shownRecord_of_decoded h).trans (decodeFrame_frameOf x.buf), shownRaw_of_decoded h]
    exact ⟨rfl, rfl, rfl, rfl, rfl, rfl, frameByte_frameOf x.buf, report_of_decoded h⟩
  · rw [outputs, shownRecord_of_not_decoded h, shownRaw_of_not_decoded h]
    exact ⟨rfl, rfl, rfl, rfl, rfl, rfl, rfl, report_of_not_decoded h⟩

/-- Settles O26: outside DECODED the report ports show zeros, and no other output is of the accumulator. -/
theorem partialBytesReachNoOutput : Obligations.PartialBytesReachNoOutput := by
  intro x m h
  have h' : ({ x with buf := m } : Inst).st ≠ .decoded := h
  simp only [outputs, shownRecord_of_not_decoded h, shownRecord_of_not_decoded h', shownRaw_of_not_decoded h,
    shownRaw_of_not_decoded h']

/-- The five bits of a count hold it (R16). -/
@[simp] theorem cntBits_toNat (c : Fin 17) : (cntBits c).toNat = c.val :=
  Nat.mod_eq_of_lt (by omega)

/-- The number of two vectors side by side. -/
theorem toNat_append_eq_add {m n : Nat} (x : BitVec m) (y : BitVec n) :
    (x ++ y).toNat = x.toNat * 2 ^ n + y.toNat := by
  rw [BitVec.toNat_append, ← Nat.shiftLeft_add_eq_or_of_lt y.isLt, Nat.shiftLeft_eq]

/-- The number of the STATUS view (R22). -/
theorem statusView_toNat (x : Inst) :
    (statusView x).toNat = x.cnt.val + 32 * (phaseCode x.st).toNat + (if x.closeErr then 256 else 0) := by
  rw [statusView, toNat_append_eq_add, toNat_append_eq_add, cntBits_toNat]
  cases x.closeErr <;> simp <;> omega

/-- Settles O28: the view is the three fields side by side. -/
theorem statusViewHoldsThreeFields : Obligations.StatusViewHoldsThreeFields := by
  intro x
  refine ⟨?_, cntBits_toNat x.cnt, BitVec.extractLsb'_append_eq_right, ?_, ?_, statusView_toNat x⟩
  · cases h : x.st <;> simp [outputs, phaseCode, h]
  · rw [statusView, BitVec.extractLsb'_append_eq_of_le (by decide)]
    exact BitVec.extractLsb'_append_eq_right
  · rw [statusView, BitVec.getLsbD_append, if_neg (by decide), BitVec.getLsbD_append, if_neg (by decide)]
    cases x.closeErr <;> rfl

/-! ### The data pins (R45, R46) -/

/-- The word of another event than DATA is the same instruction whatever its data bits (R46). -/
theorem eventInstr_ignores_data {kind : BitVec 2} (h : kind ≠ 0#2) (d d' : Byte) :
    eventInstr kind d = eventInstr kind d' := by
  have hk : kindOfCode kind ≠ .data := by
    intro hd
    apply h
    rw [← kindCode_kindOfCode kind, hd]
    rfl
  unfold eventInstr
  cases hc : kindOfCode kind with
  | data => exact absurd hc hk
  | eos | ioerr | openConn => rfl

/-- A DATA event is acceptable in AWAITING alone (R72). -/
theorem kind_ne_zero_of_inReady {st : Phase} {kind : BitVec 2} (hst : st ≠ .awaiting)
    (h : inReady st (kindOfCode kind) = true) : kind ≠ 0#2 := by
  rintro rfl
  exact hst (inReady_data.mp h)

/-- The edge of an instance that takes no DATA step selects the same instruction whatever is on in_data. -/
theorem edgeInstr_ignores_inData {pins : Pins} {x : Inst} (d : Byte)
    (h : pins.inKind ≠ 0#2 ∨ pins.rst = true ∨ pins.inValid = false ∨ x.st ≠ .awaiting) :
    edgeInstr { pins with inData := d } x = edgeInstr pins x := by
  by_cases hr : pins.rst = true
  · exact (edgeInstr_rst (pins := { pins with inData := d }) hr x).trans (edgeInstr_rst hr x).symm
  rw [Bool.not_eq_true] at hr
  by_cases ht : terminal x.st = true
  · exact (edgeInstr_terminal (pins := { pins with inData := d }) hr ht).trans (edgeInstr_terminal hr ht).symm
  rw [Bool.not_eq_true] at ht
  by_cases hv : (pins.inValid && inReady x.st (kindOfCode pins.inKind)) = true
  · obtain ⟨hvalid, hready⟩ := Bool.and_eq_true_iff.mp hv
    have hkind : pins.inKind ≠ 0#2 := by
      obtain hk | hrst | hnv | hst := h
      · exact hk
      · simp [hr] at hrst
      · simp [hvalid] at hnv
      · exact kind_ne_zero_of_inReady hst hready
    calc edgeInstr { pins with inData := d } x
        = some (eventInstr pins.inKind d) := edgeInstr_event hr ht hvalid hready
      _ = some (eventInstr pins.inKind pins.inData) := by rw [eventInstr_ignores_data hkind]
      _ = edgeInstr pins x := (edgeInstr_event hr ht hvalid hready).symm
  · rw [Bool.not_eq_true] at hv
    exact (edgeInstr_none (pins := { pins with inData := d }) hr ht hv).trans (edgeInstr_none hr ht hv).symm

/-- Two edges of an instance that select the same instruction are the same step. -/
theorem step_edge_congr {s : State} {k : Nat} {p q : Pins} {rest : List Stim}
    (h : ∀ x, s.insts[k]? = some x → edgeInstr p x = edgeInstr q x) :
    step { s with sched := .edge k p :: rest } = step { s with sched := .edge k q :: rest } := by
  cases hx : s.insts[k]? with
  | none =>
    have stops (r : Pins) : step { s with sched := .edge k r :: rest } = .refused (.noSuchInstance k) :=
      step_edge_noSuch rfl hx
    rw [stops p, stops q]
  | some x =>
    rw [step_edge (s := { s with sched := .edge k p :: rest }) rfl hx,
      step_edge (s := { s with sched := .edge k q :: rest }) rfl hx, h x hx]
    rfl

/-- Settles O45: the edge selects the same instruction whatever is on in_data. -/
theorem dataBitsOfOtherEventsAreIgnored : Obligations.DataBitsOfOtherEventsAreIgnored := by
  intro s k pins rest d h
  refine step_edge_congr fun x hx => edgeInstr_ignores_inData d ?_
  exact h.imp_right (Or.imp_right (Or.imp_right fun hst => hst x hx))

end Sys2Proof.Machine
end

section
/-! PROOFS of the family of the frame as memory and of the step of the machine: MemRead and MemWrite (R38), the instruction
that the presented bytes decode to (R37, R96), and edges of different instances (R35). -/

namespace Sys2Proof.Machine

/-! ### MemRead and MemWrite (R38) -/

/-- MemWrite outside the frame is refused. -/
theorem memWrite_outside {a : Nat} (ha : 16 ≤ a) (v : Byte) (m : Memory) :
    memWrite a v m = .error (.offsetOutsideFrame a) :=
  if_neg (Nat.not_lt.mpr ha)

/-- MemRead inside the frame is the bytes assembled. -/
theorem memRead_inside {a n : Nat} (h : (n = 1 ∨ n = 2 ∨ n = 4) ∧ a + n ≤ 16) (m : Memory) :
    memRead a n m = .ok (memAssemble m a n) :=
  if_pos h

/-- MemRead of another width, or reaching outside the frame, is refused. -/
theorem memRead_outside {a n : Nat} (h : ¬((n = 1 ∨ n = 2 ∨ n = 4) ∧ a + n ≤ 16)) (m : Memory) :
    memRead a n m = .error (.offsetOutsideFrame a) :=
  if_neg h

/-- The number of assembled bytes is little-endian (R29). -/
theorem memAssemble_toNat (m : Memory) (a n : Nat) :
    (memAssemble m a n).toNat = ∑ k ∈ Finset.range n, (memByte m (a + k)).toNat * 256 ^ k := by
  induction n generalizing a with
  | zero => rfl
  | succ n ih =>
    have hshift : ∀ k, a + 1 + k = a + (k + 1) := fun k => by omega
    calc (memAssemble m a (n + 1)).toNat
        = (memAssemble m (a + 1) n).toNat * 256 + (memByte m a).toNat := toNat_append_eq_add _ _
      _ = ∑ k ∈ Finset.range (n + 1), (memByte m (a + k)).toNat * 256 ^ k := by
        rw [ih, Finset.sum_range_succ', Finset.sum_mul]
        simp only [hshift, pow_succ, mul_assoc, Nat.add_zero, pow_zero, mul_one]

/-- Settles O23, by the laws of the frame offset space and the number of assembled bytes. -/
theorem memReadAndMemWriteMeanings : Obligations.MemReadAndMemWriteMeanings := by
  refine ⟨fun m a v hm ha => ?_, fun m a v ha => memWrite_outside ha v m, fun m a n hn han => ?_,
    fun m a n h => memRead_outside h m⟩
  · have ha' : a < 16 := by omega
    exact ⟨memPut m a v, memWrite_inside ha' v m, memPut_wf ha' v hm, memByte_memPut_same v hm,
      fun c hc => memByte_memPut_other m v hc⟩
  · exact ⟨memAssemble m a n, memRead_inside ⟨hn, han⟩ m, memAssemble_toNat m a n⟩

/-! ### The six steps as instructions -/

/-- The instruction that is one step of the selected instance (R71). -/
def basicInstr : Basic → Instr
  | .openConn => .openConn
  | .data b => .data b
  | .eos => .eos
  | .ioerr => .ioerr
  | .close cf => .close cf
  | .reset => .reset

theorem exec_basicInstr (b : Basic) (s : State) : exec (basicInstr b) s = onInst (basicStep b) s := by
  cases b <;> rfl

theorem basicInstr_wf (b : Basic) : (basicInstr b).wf = true := by
  cases b <;> rfl

/-- The step of an event (R45). -/
def eventBasic (kind : EventKind) (data : Byte) : Basic :=
  match kind with
  | .data => .data data
  | .eos => .eos
  | .ioerr => .ioerr
  | .openConn => .openConn

/-- The instruction of an event word is the event's step. -/
theorem eventInstr_eq_basicInstr (kind : BitVec 2) (d : Byte) :
    eventInstr kind d = basicInstr (eventBasic (kindOfCode kind) d) := by
  unfold eventInstr
  cases kindOfCode kind <;> rfl

/-- A legal instance takes the step of every event that is acceptable to it (R72). -/
theorem basicStep_eventBasic {kind : EventKind} {x : Inst} (hx : x.Inv) (hr : inReady x.st kind = true) (d : Byte) :
    ∃ y, basicStep (eventBasic kind d) x = .ok y := by
  cases kind with
  | data =>
    obtain ⟨-, -, hcnt, -⟩ := hx
    have ha := inReady_data.mp hr
    exact ⟨_, stepData_ok.mpr ⟨ha, Nat.lt_succ_of_le (hcnt ha), rfl⟩⟩
  | eos => exact ⟨_, stepEos_ok.mpr ⟨inReady_eos.mp hr, rfl⟩⟩
  | ioerr => exact ⟨_, stepIoerr_ok.mpr ⟨inReady_ioerr.mp hr, rfl⟩⟩
  | openConn => exact ⟨_, stepOpen_ok.mpr ⟨inReady_openConn.mp hr, rfl⟩⟩

/-! ### The decoder on the words a step presents (R37, R44, R47) -/

/-- The two bytes of an event word decode to its event (R44). -/
theorem decode_eventWord (kind : BitVec 2) (d : Byte) :
    decode .ev10 [d, kind.setWidth 8] = .ok (eventInstr kind d, []) := by
  have hlt : (kind.setWidth 8).toNat < 4 := by
    rw [BitVec.toNat_setWidth_of_le (by decide)]
    exact kind.isLt
  have hkind : (kind.setWidth 8).setWidth 2 = kind := BitVec.setWidth_setWidth_of_le _ (by decide)
  simp only [decode, hlt, hkind, if_true]

/-- The bytes of a frame decode to what the reader applies to it (R39). -/
theorem decode_bytesOfFrame (v : View) (f : Frame) :
    decode (.fr128 v) (bytesOfFrame f) = .ok (viewInstr v f, []) := by
  have hlen : (bytesOfFrame f).length ≤ 16 := (bytesOfFrame_length f).le
  simp [decode, Config.frameLen, List.take_of_length_le hlen]

theorem viewInstr_wf (v : View) (f : Frame) : (viewInstr v f).wf = true := by
  cases v with
  | whole => exact decide_eq_true (bytesOfFrame_length f)
  | deviceId | sequenceNum | timestamp | temperature | humidity | status => rfl

/-- Whatever the decoder reads is an event or a reader's view of a frame. -/
theorem decode_ok {fmt : Format} {bytes rest : List Byte} {i : Instr} (h : decode fmt bytes = .ok (i, rest)) :
    (∃ kind d, i = eventInstr kind d) ∨ ∃ v f, i = viewInstr v f := by
  unfold decode at h
  split at h
  · split at h
    · cases h
      exact .inl ⟨_, _, rfl⟩
    · cases h
  · cases h
  · cases h
  · split at h
    · cases h
      exact .inr ⟨_, _, rfl⟩
    · cases h

/-- Whatever a table word decodes to is an event or a reader's view of a frame. -/
theorem decodeTableWord_some {nbits w : Nat} {i : Instr} (h : decodeTableWord nbits w = some i) :
    (∃ kind d, i = eventInstr kind d) ∨ ∃ v f, i = viewInstr v f := by
  unfold decodeTableWord at h
  split at h
  · cases h
  · split at h
    · split at h
      · rename_i hd
        cases h
        exact decode_ok hd
      · cases h
    · cases h

/-- Settles O39: the bytes decode to the instruction that the edge, or the reader, selects. -/
theorem stepRunsTheDecodedInstruction : Obligations.StepRunsTheDecodedInstruction := by
  refine ⟨fun s k pins rest x i hs hx hrst ht hv hready hd => ?_, fun s v f rest i hs hd => ?_⟩
  · rw [decode_eventWord] at hd
    cases hd
    refine ⟨eventInstr_eq_basicInstr pins.inKind pins.inData ▸ basicInstr_wf _, ?_⟩
    rw [step_edge hs hx, edgeInstr_event hrst ht hv hready]
    rfl
  · rw [decode_bytesOfFrame] at hd
    cases hd
    exact ⟨viewInstr_wf v f, step_view hs⟩

/-! ### A presented word (R37) -/

/-- Decode of sixteen bytes leaves its record in the result (R52). -/
theorem exec_decode_of_length {bytes : List Byte} (h : bytes.length = 16) (s : State) :
    exec (.decode bytes) s = .next (s.setResult (.record (decodeFrame (frameOfBytes bytes)))) := by
  simp [exec, execDecode, decodeBuffer, Config.frameLen, h]

/-- What a reader applies to a frame completes, with a reading in the result (R52 to R58). -/
theorem exec_viewInstr (v : View) (f : Frame) (s : State) : ∃ r, exec (viewInstr v f) s = .next (s.setResult r) := by
  cases v with
  | whole => exact ⟨_, exec_decode_of_length (bytesOfFrame_length f) s⟩
  | deviceId | sequenceNum | timestamp | temperature | humidity | status => exact ⟨_, rfl⟩

theorem presentInstr_viewInstr (v : View) (f : Frame) (s : State) :
    presentInstr (viewInstr v f) s = s.present (.view v f) := by
  cases v with
  | whole => rw [viewInstr, presentInstr, frameOfBytes_bytesOfFrame]
  | deviceId | sequenceNum | timestamp | temperature | humidity | status => rfl

/-- An event is presented with the data of a word of the same event (R45, R46). -/
theorem presentInstr_eventInstr (kind : BitVec 2) (d : Byte) (s : State) :
    ∃ d', presentInstr (eventInstr kind d) s = presentEvent (kindOfCode kind) d' s ∧
      eventInstr kind d' = eventInstr kind d := by
  unfold eventInstr
  cases kindOfCode kind with
  | data => exact ⟨d, rfl, rfl⟩
  | eos | ioerr | openConn => exact ⟨0x00#8, rfl, rfl⟩

/-- An instance made ready for an event accepts it (log entry 8). -/
theorem readyFor_inReady (kind : EventKind) (x : Inst) : inReady (readyFor kind x).st kind = true := by
  unfold readyFor
  split
  · assumption
  · cases kind <;> rfl

/-- An instance made ready is as legal as it was. -/
theorem readyFor_inv {x : Inst} (hx : x.Inv) (kind : EventKind) : (readyFor kind x).Inv := by
  unfold readyFor
  split
  · exact hx
  · split
    · exact cleared_closed_inv false
    · exact cleared_awaiting_inv

/-- The edge of a presented event selects it in an instance that accepts it. -/
theorem edgeInstr_eventPins {kind : EventKind} {x : Inst} (hr : inReady x.st kind = true) (d : Byte) :
    edgeInstr (eventPins kind d) x = some (eventInstr (kindCode kind) d) := by
  have ht : terminal x.st = false := Bool.eq_false_iff.mpr fun ht => by simp [inReady_of_terminal ht] at hr
  exact edgeInstr_event rfl ht rfl (by rwa [eventPins, kindOfCode_kindCode])

/-- An acceptable event runs to completion in a legal instance. -/
theorem exec_eventInstr_next {s : State} {x : Inst} {kind : BitVec 2} (hx : s.insts[s.ch]? = some x) (hinv : x.Inv)
    (hr : inReady x.st (kindOfCode kind) = true) (d : Byte) : ∃ u, exec (eventInstr kind d) s = .next u := by
  obtain ⟨y, hy⟩ := basicStep_eventBasic hinv hr d
  exact ⟨s.setInst y, by rw [eventInstr_eq_basicInstr, exec_basicInstr, onInst_of hx hy]⟩

/-- The very next step runs the instruction, which completes and leaves these stimuli (R37). -/
def RunsNext (i : Instr) (s : State) (rest : List Stim) : Prop :=
  ∃ t u, step s = exec i t ∧ exec i t = .next u ∧ u.sched = rest

/-- An instruction that completes in the state in which a step runs it leaves that state's stimuli. -/
theorem runsNext_of_exec {i : Instr} {s t u : State} (hs : step s = exec i t) (hu : exec i t = .next u) :
    RunsNext i s t.sched :=
  ⟨t, u, hs, hu, (exec_sameButSelected hu).sched⟩

/-- An acceptable event at the edge of a legal instance runs next. -/
theorem runsNext_eventPins {s : State} {k : Nat} {rest : List Stim} {x : Inst} {kind : BitVec 2} {d : Byte}
    (hs : s.sched = .edge k (eventPins (kindOfCode kind) d) :: rest) (hx : s.insts[k]? = some x) (hinv : x.Inv)
    (hr : inReady x.st (kindOfCode kind) = true) : RunsNext (eventInstr kind d) s rest := by
  obtain ⟨u, hu⟩ := exec_eventInstr_next (s := s.takeEdge k rest) hx hinv hr d
  refine runsNext_of_exec ?_ hu
  rw [step_edge hs hx, edgeInstr_eventPins hr, kindCode_kindOfCode]

/-- An event presented to a legal instance runs next: the instance is made ready for it. -/
theorem runsNext_presentEvent {s : State} {x : Inst} (hx : s.insts[s.ch]? = some x) (hinv : x.Inv) (kind : BitVec 2)
    (d : Byte) : RunsNext (eventInstr kind d) (presentEvent (kindOfCode kind) d s) s.sched := by
  simp only [presentEvent, hx]
  exact runsNext_eventPins rfl (setInst_selected hx _) (readyFor_inv hinv _) (readyFor_inReady _ x)

/-- A frame presented to a reader is read next. -/
theorem runsNext_presentView (s : State) (v : View) (f : Frame) :
    RunsNext (viewInstr v f) (s.present (.view v f)) s.sched := by
  obtain ⟨r, hr⟩ := exec_viewInstr v f ((s.present (.view v f)).takeView s.sched)
  exact runsNext_of_exec (step_view rfl) hr

/-- Settles O46: a table word is an event, for which the instance is made ready, or a reader's view of a frame. -/
theorem presentedWordRunsNext : Obligations.PresentedWordRunsNext := by
  intro s x nbits w i hx hinv hw
  have hword : s.withFetchWord nbits w = presentInstr i s := by simp only [State.withFetchWord, presentWord, hw]
  rw [hword]
  obtain ⟨kind, d, rfl⟩ | ⟨v, f, rfl⟩ := decodeTableWord_some hw
  · obtain ⟨d', hpresent, hd'⟩ := presentInstr_eventInstr kind d s
    rw [hpresent, ← hd']
    exact runsNext_presentEvent hx hinv kind d'
  · rw [presentInstr_viewInstr]
    exact runsNext_presentView s v f

/-! ### Edges of two instances (R35) -/

/-- The step an instance takes at a rising edge, if any (R85, R96). -/
def edgeBasic (pins : Pins) (x : Inst) : Option Basic :=
  if pins.rst then some .reset
  else if terminal x.st then some (.close pins.closeFail)
  else if pins.inValid && inReady x.st (kindOfCode pins.inKind) then
    some (eventBasic (kindOfCode pins.inKind) pins.inData)
  else none

/-- The instruction an edge selects is one step of the instance. -/
theorem edgeInstr_eq_edgeBasic (pins : Pins) (x : Inst) : edgeInstr pins x = (edgeBasic pins x).map basicInstr := by
  unfold edgeInstr edgeBasic
  rw [eventInstr_eq_basicInstr]
  split_ifs <;> rfl

/-- The next value of an instance at a rising edge: a function of its own value and its own pins (R60, R91). -/
def edgeNext (pins : Pins) (x : Inst) : Except Refusal Inst :=
  match edgeBasic pins x with
  | some b => basicStep b x
  | none => .ok x

/-- Setting the selected instance to the value it has changes nothing. -/
theorem setInst_self {s : State} {x : Inst} (hx : s.insts[s.ch]? = some x) : s.setInst x = s := by
  obtain ⟨hlt, rfl⟩ := List.getElem?_eq_some_iff.mp hx
  rw [State.setInst, List.set_getElem_self]

/-- An edge is the edge's own instance taking its next value, with the stimulus taken. -/
theorem step_edge_eq_onInst {s : State} {k : Nat} {pins : Pins} {rest : List Stim}
    (hs : s.sched = .edge k pins :: rest) : step s = onInst (edgeNext pins) (s.takeEdge k rest) := by
  cases hx : s.insts[k]? with
  | none => simp [step_edge_noSuch hs hx, onInst, hx]
  | some x =>
    rw [step_edge hs hx, edgeInstr_eq_edgeBasic]
    cases hb : edgeBasic pins x with
    | none =>
      have hnext : edgeNext pins x = .ok x := by rw [edgeNext, hb]
      rw [onInst_of hx hnext, setInst_self hx]
      rfl
    | some b =>
      have hnext : edgeNext pins x = basicStep b x := by rw [edgeNext, hb]
      have hsel : (s.takeEdge k rest).insts[(s.takeEdge k rest).ch]? = some x := hx
      simp only [Option.map_some, exec_basicInstr, onInst, hsel, hnext]

/-- What a step at an edge can do: the edge's instance takes its next value, and no other changes. -/
theorem step_edge_next_iff {s t : State} {k : Nat} {pins : Pins} {rest : List Stim}
    (hs : s.sched = .edge k pins :: rest) :
    step s = .next t ↔
      ∃ x y, s.insts[k]? = some x ∧ edgeNext pins x = .ok y ∧ t = (s.takeEdge k rest).setInst y := by
  rw [step_edge_eq_onInst hs, onInst_next]
  rfl

/-- A run of one more step. -/
theorem core_run_succ_next {n : Nat} {s t : State} :
    Sys2Proof.core.run (n + 1) s = .next t ↔ ∃ s', step s = .next s' ∧ Sys2Proof.core.run n s' = .next t := by
  have hcore : Sys2Proof.core.step s = step s := rfl
  simp only [Host.Core.run, hcore]
  cases step s <;> simp

/-- What two edges of different instances can do: each takes its own next value. -/
theorem run_two_edges_next {s t : State} {j k : Nat} {p q : Pins} {rest : List Stim} (hjk : j ≠ k) :
    Sys2Proof.core.run 2 { s with sched := .edge j p :: .edge k q :: rest } = .next t ↔
      ∃ x y x' y', s.insts[j]? = some x ∧ edgeNext p x = .ok y ∧ s.insts[k]? = some x' ∧ edgeNext q x' = .ok y' ∧
        t = { s with insts := (s.insts.set j y).set k y', ch := k, sched := rest } := by
  have hother : ∀ y, (s.insts.set j y)[k]? = s.insts[k]? := fun y => List.getElem?_set_ne hjk
  constructor
  · intro h
    obtain ⟨s', hj, h⟩ := core_run_succ_next.mp h
    obtain ⟨x, y, hx, hy, rfl⟩ := (step_edge_next_iff rfl).mp hj
    obtain ⟨t', hk, h⟩ := core_run_succ_next.mp h
    obtain ⟨x', y', hx', hy', rfl⟩ := (step_edge_next_iff rfl).mp hk
    cases h
    exact ⟨x, y, x', y', hx, hy, (hother y).symm.trans hx', hy', rfl⟩
  · rintro ⟨x, y, x', y', hx, hy, hx', hy', rfl⟩
    refine core_run_succ_next.mpr ⟨_, (step_edge_next_iff rfl).mpr ⟨x, y, hx, hy, rfl⟩, ?_⟩
    refine core_run_succ_next.mpr ⟨_, (step_edge_next_iff rfl).mpr ⟨x', y', ?_, hy', rfl⟩, rfl⟩
    exact (hother y).trans hx'

/-- Settles O49: values set at two different indices may be set in either order. -/
theorem edgesOfTwoInstancesCommute : Obligations.EdgesOfTwoInstancesCommute := by
  intro s t j k p q rest hjk h
  obtain ⟨x, y, x', y', hx, hy, hx', hy', rfl⟩ := (run_two_edges_next hjk).mp h
  exact ⟨_, (run_two_edges_next hjk.symm).mpr ⟨x', y', x, y, hx', hy', hx, hy, rfl⟩,
    List.set_comm y' y hjk.symm, rfl⟩

end Sys2Proof.Machine
end

section
/-! PROOFS of the family of the encodings: the decoder on encoded instructions (R39 to R47), the frame vector and its fields
(R40, R42, R43), and the lines of a trace (R48, R49). -/

namespace Sys2Proof.Machine

/-! ### The encoder and the decoder (R39 to R47) -/

/-- The decoder reads no byte after the word at the front. -/
theorem decode_append {fmt : Format} {bytes : List Byte} {i : Instr} (h : decode fmt bytes = .ok (i, []))
    (rest : List Byte) : decode fmt (bytes ++ rest) = .ok (i, rest) := by
  cases fmt with
  | ev10 =>
    obtain - | ⟨lo, - | ⟨hi, tail⟩⟩ := bytes
    · cases h
    · cases h
    · by_cases hi4 : hi.toNat < 4 <;> simp only [decode, hi4, if_true, if_false] at h
      · cases h
        simp only [List.cons_append, List.nil_append, decode, hi4, if_true]
      · cases h
  | fr128 v =>
    by_cases hlen : Config.frameLen ≤ bytes.length <;> simp only [decode, hlen, if_true, if_false] at h
    · simp only [Except.ok.injEq, Prod.mk.injEq, List.drop_eq_nil_iff] at h
      obtain ⟨rfl, hdrop⟩ := h
      have hexact : bytes.length = Config.frameLen := le_antisymm hdrop hlen
      have hlong : Config.frameLen ≤ (bytes ++ rest).length := by
        rw [List.length_append]
        exact Nat.le_add_right_of_le hlen
      simp only [decode, hlong, if_true, List.take_left' hexact, List.drop_left' hexact, List.take_of_length_le hdrop]
    · cases h

/-- What the encoder gives: the word of an event, or the frame of what a reader applies to it. -/
theorem encode_some {i : Instr} {fmt : Format} {bytes : List Byte} (hwf : i.wf = true)
    (h : encode i = some (fmt, bytes)) :
    (∃ kind d, fmt = .ev10 ∧ bytes = eventBytes kind d ∧ i = eventInstr (kindCode kind) d) ∨
      ∃ v f, fmt = .fr128 v ∧ bytes = bytesOfFrame f ∧ i = viewInstr v f := by
  cases i with
  | data b | eos | ioerr | openConn =>
    cases h
    exact .inl ⟨_, _, rfl, rfl, rfl⟩
  | close | reset | read | frame | record | conn => cases h
  | decode bs =>
    cases h
    have hframe := (bytesOfFrame_frameOfBytes bytes (of_decide_eq_true hwf)).symm
    exact .inr ⟨.whole, frameOfBytes bytes, rfl, hframe, congrArg Instr.decode hframe⟩
  | fldDeviceId | fldSequenceNum | fldTimestamp | fldTemperature | fldHumidity | fldStatus =>
    cases h
    exact .inr ⟨_, _, rfl, rfl, rfl⟩

/-- Settles O36: the bytes are an event's word or a reader's frame, and the decoder reads no byte after them. -/
theorem decodeOfEncodeIsTheInstruction : Obligations.DecodeOfEncodeIsTheInstruction := by
  intro i fmt bytes rest hwf h
  apply decode_append
  obtain ⟨kind, d, rfl, rfl, rfl⟩ | ⟨v, f, rfl, rfl, rfl⟩ := encode_some hwf h
  · exact decode_eventWord (kindCode kind) d
  · exact decode_bytesOfFrame v f

/-- The two bytes of an event word of ten bits: its data, then its kind (log entry 6). -/
theorem numberBytes_eventWord (ev : BitVec 10) :
    numberBytes 2 ev.toNat = [ev.extractLsb' 0 8, (ev.extractLsb' 8 2).setWidth 8] := by
  have hlo : BitVec.ofNat 8 ev.toNat = ev.extractLsb' 0 8 := by
    apply BitVec.eq_of_toNat_eq
    simp
  have hhi : BitVec.ofNat 8 (ev.toNat / 256) = (ev.extractLsb' 8 2).setWidth 8 := by
    apply BitVec.eq_of_toNat_eq
    simp [Nat.shiftRight_eq_div_pow]
    omega
  simp only [numberBytes, hlo, hhi]

/-- Every word of ten bits is an event word: its kind in the two high bits, its data in the others (R44). -/
theorem decodeTableWord_eventWord (ev : BitVec 10) :
    decodeTableWord 16 ev.toNat = some (eventInstr (ev.extractLsb' 8 2) (ev.extractLsb' 0 8)) := by
  have hlt : ev.toNat < 2 ^ 16 := by omega
  have hfmt : formatOfWidth 16 = some .ev10 := rfl
  simp only [decodeTableWord, hfmt, hlt, if_true, formatBytes, numberBytes_eventWord, decode_eventWord]

/-- The mask keeps the kind of an event word (R45). -/
theorem eventWord_kind_mask (ev : BitVec 10) : ev.extractLsb' 8 2 = (ev &&& 0x300#10).extractLsb' 8 2 := by
  have hones : (0x300#10).extractLsb' 8 2 = BitVec.allOnes 2 := rfl
  rw [BitVec.extractLsb'_and, hones, BitVec.and_allOnes]

/-- The instruction of an event word whose masked bits match (R45). -/
theorem decodeTableWord_of_mask {ev : BitVec 10} {m : BitVec 10} (h : ev &&& 0x300#10 = m) :
    decodeTableWord 16 ev.toNat = some (eventInstr (m.extractLsb' 8 2) (ev.extractLsb' 0 8)) := by
  rw [decodeTableWord_eventWord, eventWord_kind_mask, h]

/-- Settles O37: the masked bits are the kind, and every word of ten bits is the event of its kind. -/
theorem eventWordsDecodeByMaskAndMatch : Obligations.EventWordsDecodeByMaskAndMatch :=
  ⟨fun _ => ⟨decodeTableWord_of_mask, decodeTableWord_of_mask, decodeTableWord_of_mask, decodeTableWord_of_mask⟩,
    rfl, rfl, rfl⟩

/-- Settles O38: the event words are words of ten bits, and the two frames are literal. -/
theorem wordsOfTheSpecDecode : Obligations.WordsOfTheSpecDecode :=
  ⟨decodeTableWord_eventWord 0x02A#10, decodeTableWord_eventWord 0x15A#10, decodeTableWord_eventWord 0x2A5#10,
    decodeTableWord_eventWord 0x3FF#10, by decide, by decide⟩

/-! ### Storing bytes in stream order (R32, R73) -/

/-- The bytes stored one after the other from offset `a` on. -/
def storeBytes : Memory → Nat → List Byte → Memory
  | m, _, [] => m
  | m, a, b :: bs => storeBytes (memPut m a b) (a + 1) bs

/-- Stored bytes leave every offset before and after theirs. -/
theorem memByte_storeBytes_outside {bytes : List Byte} {m : Memory} {a c : Nat} (hc : c < a ∨ a + bytes.length ≤ c) :
    memByte (storeBytes m a bytes) c = memByte m c := by
  induction bytes generalizing m a with
  | nil => rfl
  | cons b bs ih =>
    rw [List.length_cons] at hc
    rw [storeBytes, ih (by omega), memByte_memPut_other _ _ (by omega)]

theorem storeBytes_wf {bytes : List Byte} {m : Memory} {a : Nat} (hm : m.wf = true) (ha : a + bytes.length ≤ 16) :
    Memory.wf (storeBytes m a bytes) = true := by
  induction bytes generalizing m a with
  | nil => exact hm
  | cons b bs ih =>
    rw [List.length_cons] at ha
    exact ih (memPut_wf (by omega) b hm) (by omega)

/-- Stored bytes stand at their offsets in their order. -/
theorem memByte_storeBytes_inside {bytes : List Byte} {m : Memory} {a i : Nat} (hm : m.wf = true)
    (ha : a + bytes.length ≤ 16) (hi : i < bytes.length) :
    memByte (storeBytes m a bytes) (a + i) = bytes.getD i 0x00#8 := by
  induction bytes generalizing m a i with
  | nil => cases hi
  | cons b bs ih =>
    rw [List.length_cons] at ha hi
    rw [storeBytes]
    cases i with
    | zero => exact (memByte_storeBytes_outside (.inl (Nat.lt_succ_self a))).trans (memByte_memPut_same b hm)
    | succ i =>
      have hoff : a + (i + 1) = a + 1 + i := by omega
      rw [hoff, ih (memPut_wf (by omega) b hm) (by omega) (by omega), List.getD_cons_succ]

/-! ### The frame vector and its fields (R40, R42, R43) -/

/-- Sixteen bytes stored in a clear accumulator. -/
theorem memByte_storeBytes_memClear {bytes : List Byte} (h : bytes.length = 16) {i : Nat} (hi : i < 16) :
    memByte (storeBytes memClear 0 bytes) i = bytes.getD i 0x00#8 := by
  have hbyte := memByte_storeBytes_inside (i := i) memClear_wf (a := 0) (bytes := bytes) (by omega) (by omega)
  rwa [Nat.zero_add] at hbyte

/-- The frame vector of sixteen bytes is that of an accumulator in which they are stored (R40). -/
theorem frameOf_storeBytes_memClear {bytes : List Byte} (h : bytes.length = 16) :
    frameOf (storeBytes memClear 0 bytes) = frameOfBytes bytes :=
  frameOf_eq_frameOfBytes fun _ hi => memByte_storeBytes_memClear h hi

/-- The number of the frame vector is the sum of its bytes by powers of 256 (R40). -/
theorem frameOfBytes_toNat {bytes : List Byte} (h : bytes.length = 16) :
    (frameOfBytes bytes).toNat = ∑ i ∈ Finset.range 16, (bytes.getD i 0x00#8).toNat * 256 ^ i := by
  rw [← frameOf_storeBytes_memClear h]
  refine (memAssemble_toNat (storeBytes memClear 0 bytes) 0 16).trans (Finset.sum_congr rfl fun i hi => ?_)
  rw [Nat.zero_add, memByte_storeBytes_memClear h (Finset.mem_range.mp hi)]

/-- Settles O24: the bits of the frame vector, and its number as that of an accumulator. -/
theorem frameVectorPacksSixteenBytes : Obligations.FrameVectorPacksSixteenBytes :=
  ⟨fun bytes h => ⟨frameByte_frameOfBytes bytes, frameOfBytes_toNat h⟩, frameByte_frameOf⟩

/-- Decode of sixteen bytes: every field is its bytes, lowest offset least significant (R42). -/
theorem decodeFrame_frameOfBytes {bytes : List Byte} (h : bytes.length = 16) :
    decodeFrame (frameOfBytes bytes) =
      { deviceId := bytes.getD 0 0x00#8
        sequenceNum := bytes.getD 2 0x00#8 ++ bytes.getD 1 0x00#8
        timestamp := bytes.getD 6 0x00#8 ++ bytes.getD 5 0x00#8 ++ bytes.getD 4 0x00#8 ++ bytes.getD 3 0x00#8
        temperature := bytes.getD 10 0x00#8 ++ bytes.getD 9 0x00#8 ++ bytes.getD 8 0x00#8 ++ bytes.getD 7 0x00#8
        humidity := bytes.getD 14 0x00#8 ++ bytes.getD 13 0x00#8 ++ bytes.getD 12 0x00#8 ++ bytes.getD 11 0x00#8
        status := bytes.getD 15 0x00#8 } := by
  rw [← frameOf_storeBytes_memClear h, decodeFrame_frameOf]
  simp only [memByte_storeBytes_memClear h, Nat.reduceLT]

/-- Settles O16: the sixteen bytes are those of the list. -/
theorem fieldsAreTheirBytesLittleEndian : Obligations.FieldsAreTheirBytesLittleEndian :=
  fun _ _ _ _ _ _ _ _ _ _ _ _ _ _ _ _ => decodeFrame_frameOfBytes rfl

/-- The signed number of a vector is its two's complement one (R10). -/
theorem sint_eq_toInt {w : Nat} (v : BitVec w) : sint v = v.toInt := by
  rw [sint, BitVec.toInt_eq_msb_cond]
  push_cast
  rfl

/-- Settles O22, by the range and the sign of a two's complement number. -/
theorem fieldValuesStayInTheirRanges : Obligations.FieldValuesStayInTheirRanges := by
  intro r
  have hmin := BitVec.le_toInt r.timestamp
  have hmax := BitVec.toInt_lt (x := r.timestamp)
  refine ⟨Nat.le_of_lt_succ r.deviceId.isLt, Nat.le_of_lt_succ r.sequenceNum.isLt, Nat.le_of_lt_succ r.status.isLt, ?_⟩
  rw [timestampValue, sint_eq_toInt, ← BitVec.msb_eq_getLsbD_last r.timestamp]
  refine ⟨by omega, by omega, ?_⟩
  rw [BitVec.msb_eq_toInt, decide_eq_true_iff]


/-! ### Lines of one instance (R48)

Every line acts on the selected instance alone, so that lines are steps of one instance lifted to the machine, with the
CLOSE steps they leave out. -/

/-- An outcome and what follows it where it is a next state (R48). -/
def thenRun (o : Host.Outcome State Fault Refusal) (k : State → Host.Outcome State Fault Refusal) :
    Host.Outcome State Fault Refusal :=
  match o with
  | .next t => k t
  | .fault e => .fault e
  | .refused r => .refused r

theorem thenRun_next (o : Host.Outcome State Fault Refusal) : thenRun o .next = o := by
  cases o <;> rfl

theorem onInst_of_none {s : State} (hx : s.insts[s.ch]? = none) (f : Inst → Except Refusal Inst) :
    onInst f s = .refused (.noSuchInstance s.ch) := by
  simp only [onInst, hx]

theorem onInst_of_error {f : Inst → Except Refusal Inst} {s : State} {x : Inst} {r : Refusal}
    (hx : s.insts[s.ch]? = some x) (hf : f x = .error r) : onInst f s = .refused r := by
  simp only [onInst, hx, hf]

/-- Two steps of the selected instance, one after the other. -/
theorem thenRun_onInst (f g : Inst → Except Refusal Inst) (s : State) :
    thenRun (onInst f s) (onInst g) = onInst (fun x => f x >>= g) s := by
  cases hx : s.insts[s.ch]? with
  | none => rw [onInst_of_none hx, onInst_of_none hx, thenRun]
  | some x =>
    cases hf : f x with
    | error r =>
      have hbind : f x >>= g = .error r := by rw [hf]; rfl
      rw [onInst_of_error hx hf, onInst_of_error hx hbind, thenRun]
    | ok y =>
      have hbind : f x >>= g = g y := by rw [hf]; rfl
      rw [onInst_of hx hf, thenRun]
      cases hg : g y with
      | error r => rw [onInst_of_error (setInst_selected hx y) hg, onInst_of_error hx (hbind.trans hg)]
      | ok z => rw [onInst_of (setInst_selected hx y) hg, onInst_of hx (hbind.trans hg), setInst_setInst]

/-- What two steps in a row can do. -/
theorem except_bind_ok {ε α β : Type} {e : Except ε α} {f : α → Except ε β} {b : β} :
    (e >>= f) = .ok b ↔ ∃ a, e = .ok a ∧ f a = .ok b := by
  cases e with
  | error r => simp [bind, Except.bind]
  | ok a => simp [bind, Except.bind]

/-- The instance after OPEN (R66). -/
def openedInst : Inst := { buf := memClear, cnt := 0, st := .awaiting, closeErr := false }

/-- The instance after a CLOSE whose close operation did not fail (R70). -/
def closedInst : Inst := { buf := memClear, cnt := 0, st := .closed, closeErr := false }

/-- The instance after the CLOSE that its phase forces, if it does (R48, R70). -/
def settle (x : Inst) : Inst := if terminal x.st then closedInst else x

theorem settle_of_terminal {x : Inst} (h : terminal x.st = true) : settle x = closedInst := if_pos h

theorem settle_of_not_terminal {x : Inst} (h : terminal x.st = false) : settle x = x :=
  if_neg (Bool.eq_false_iff.mp h)

theorem settle_terminal (x : Inst) : terminal (settle x).st = false := by
  cases h : terminal x.st with
  | true => rw [settle_of_terminal h]; rfl
  | false => rwa [settle_of_not_terminal h]

theorem settle_settle (x : Inst) : settle (settle x) = settle x := settle_of_not_terminal (settle_terminal x)

/-- An instance that accepts a byte, an end or a failure is not forced to close. -/
theorem settle_of_settle_awaiting {x : Inst} (h : (settle x).st = .awaiting) : settle x = x := by
  cases ht : terminal x.st with
  | true =>
    rw [settle_of_terminal ht] at h
    cases h
  | false => exact settle_of_not_terminal ht

/-- One line of one instance: the step it states, after the CLOSE it leaves out (log entry 12). -/
def lineStep (b : Basic) (x : Inst) : Except Refusal Inst :=
  match b with
  | .close _ | .reset => basicStep b x
  | .openConn | .data _ | .eos | .ioerr => basicStep b (settle x)

theorem lineStep_of_not_terminal {x : Inst} (h : terminal x.st = false) (b : Basic) : lineStep b x = basicStep b x := by
  cases b with
  | close | reset => rfl
  | openConn | data b | eos | ioerr => simp only [lineStep, settle_of_not_terminal h]

/-- The lines of one instance, in order. -/
def lineRun : List Basic → Inst → Except Refusal Inst
  | [], x => .ok x
  | b :: bs, x => lineStep b x >>= lineRun bs

theorem lineRun_singleton (b : Basic) (x : Inst) : lineRun [b] x = lineStep b x := bind_pure (lineStep b x)

/-- A CONN of one instance: OPEN, the lines, then the CLOSE that the phase forces. -/
def connRun (lines : List Line) (x : Inst) : Except Refusal Inst :=
  lineRun (.openConn :: lines.flatMap lineSteps) x >>= fun y => .ok (settle y)

theorem forceClose_eq_onInst (s : State) : forceClose s = onInst (fun x => .ok (settle x)) s := by
  cases hx : s.insts[s.ch]? with
  | none => simp only [forceClose, onInst, hx]
  | some x =>
    rw [onInst_of (y := settle x) hx rfl, forceClose_next]
    cases ht : terminal x.st with
    | true => exact ⟨x, hx, .inr ⟨ht, by rw [settle_of_terminal ht, closedInst]⟩⟩
    | false => exact ⟨x, hx, .inl ⟨ht, by rw [settle_of_not_terminal ht, setInst_self hx]⟩⟩

/-- A line of a trace is a step of the selected instance. -/
theorem runLine_eq_onInst (b : Basic) (s : State) : runLine b s = onInst (lineStep b) s := by
  have hforced (b : Basic) :
      thenRun (forceClose s) (onInst (basicStep b)) = onInst (fun x => basicStep b (settle x)) s := by
    rw [forceClose_eq_onInst, thenRun_onInst]
    rfl
  cases b with
  | close cf => rfl
  | reset => rfl
  | openConn | data b | eos | ioerr => exact hforced _

theorem runLines_cons_eq_thenRun (b : Basic) (bs : List Basic) (s : State) :
    runLines (b :: bs) s = thenRun (runLine b s) (runLines bs) := rfl

/-- The lines of a trace are a step of the selected instance. -/
theorem runLines_cons_eq_onInst (b : Basic) (bs : List Basic) (s : State) :
    runLines (b :: bs) s = onInst (lineRun (b :: bs)) s := by
  induction bs generalizing b s with
  | nil =>
    have hlast : runLines [] = .next := rfl
    have hone : lineRun [b] = lineStep b := funext (lineRun_singleton b)
    rw [runLines_cons_eq_thenRun, hlast, thenRun_next, hone, runLine_eq_onInst]
  | cons c bs ih =>
    rw [runLines_cons_eq_thenRun, runLine_eq_onInst, funext (ih c), thenRun_onInst]
    rfl

theorem lineRun_append (a b : List Basic) (x : Inst) : lineRun (a ++ b) x = lineRun a x >>= lineRun b := by
  induction a generalizing x with
  | nil => rfl
  | cons c a ih => simp only [List.cons_append, lineRun, funext ih, bind_assoc]

/-- A well-formed CONN is a step of the selected instance. -/
theorem exec_conn_eq_onInst {lines : List Line} (h : lines.all Line.wf = true) (s : State) :
    exec (.conn lines) s = onInst (connRun lines) s := by
  have hconn : exec (.conn lines) s =
      thenRun (runLines (.openConn :: lines.flatMap lineSteps) s) forceClose := if_pos h
  rw [hconn, runLines_cons_eq_onInst, funext forceClose_eq_onInst, thenRun_onInst]
  rfl

/-- An OPEN line takes the CLOSE that the line before it left out. -/
theorem lineStep_openConn_settle (x : Inst) : lineStep .openConn (settle x) = lineStep .openConn x :=
  congrArg stepOpen (settle_settle x)

/-- A CONN whose lines hold a further OPEN, on one instance. -/
theorem connRun_append_openConn (l₁ l₂ : List Line) (x : Inst) :
    connRun (l₁ ++ .step .openConn :: l₂) x = connRun l₁ x >>= connRun l₂ := by
  have hopen (y : Inst) : (Except.ok (settle y) >>= connRun l₂) = connRun l₂ y := by
    change connRun l₂ (settle y) = connRun l₂ y
    simp only [connRun, lineRun, lineStep_openConn_settle]
  have hlines : .openConn :: (l₁ ++ .step .openConn :: l₂).flatMap lineSteps =
      (.openConn :: l₁.flatMap lineSteps) ++ (.openConn :: l₂.flatMap lineSteps) := by
    simp [lineSteps]
  calc connRun (l₁ ++ .step .openConn :: l₂) x
      = lineRun (.openConn :: l₁.flatMap lineSteps) x >>= connRun l₂ := by
        rw [connRun, hlines, lineRun_append, bind_assoc]
        rfl
    _ = connRun l₁ x >>= connRun l₂ := by
        rw [connRun, bind_assoc, funext hopen]

/-- Settles O54: both sides are one step of the selected instance. -/
theorem connectionsFollowOneAnother : Obligations.ConnectionsFollowOneAnother := by
  intro s l₁ l₂ h₁ h₂
  have hlines : (l₁ ++ .step .openConn :: l₂).all Line.wf = true := by simp [List.all_append, h₁, h₂, Line.wf]
  calc exec (.conn (l₁ ++ .step .openConn :: l₂)) s
      = onInst (fun x => connRun l₁ x >>= connRun l₂) s := by
        rw [exec_conn_eq_onInst hlines, funext (connRun_append_openConn l₁ l₂)]
    _ = thenRun (exec (.conn l₁) s) (exec (.conn l₂)) := by
        rw [← thenRun_onInst, exec_conn_eq_onInst h₁, funext (exec_conn_eq_onInst h₂)]

/-! ### A run of bytes (R67, R73) -/

/-- The instance after some bytes that fit: they stand from its count on, and the sixteenth enters DECODED. -/
def afterBytes (x : Inst) (bytes : List Byte) : Inst :=
  { buf := storeBytes x.buf x.cnt.val bytes
    cnt := Fin.ofNat 17 (x.cnt.val + bytes.length)
    st := if x.cnt.val + bytes.length = 16 then .decoded else .awaiting
    closeErr := x.closeErr }

theorem afterBytes_cnt {x : Inst} {bytes : List Byte} (h : x.cnt.val + bytes.length ≤ 16) :
    (afterBytes x bytes).cnt.val = x.cnt.val + bytes.length :=
  Nat.mod_eq_of_lt (by omega)

/-- No byte leaves an instance that waits for one as it is. -/
theorem afterBytes_nil {x : Inst} (hst : x.st = .awaiting) (hcnt : x.cnt.val < 16) : afterBytes x [] = x := by
  have hne : x.cnt.val ≠ 16 := by omega
  obtain ⟨buf, cnt, st, closeErr⟩ := x
  obtain rfl : st = .awaiting := hst
  simp [afterBytes, storeBytes, hne]

theorem afterBytes_singleton_cnt {x : Inst} (h : x.cnt.val < 16) (b : Byte) :
    (afterBytes x [b]).cnt.val = x.cnt.val + 1 :=
  afterBytes_cnt h

theorem afterBytes_singleton_st {x : Inst} (h : x.cnt.val + 1 < 16) (b : Byte) : (afterBytes x [b]).st = .awaiting :=
  if_neg h.ne

/-- A byte, then more bytes. -/
theorem afterBytes_cons {x : Inst} (h : x.cnt.val < 16) (b : Byte) (bs : List Byte) :
    afterBytes (afterBytes x [b]) bs = afterBytes x (b :: bs) := by
  have hsum : x.cnt.val + 1 + bs.length = x.cnt.val + (b :: bs).length := by rw [List.length_cons]; omega
  rw [afterBytes, afterBytes_singleton_cnt h, hsum]
  rfl

/-- What a DATA line can do: its byte is stored, and no CLOSE comes before it (R67). -/
theorem lineStep_data_ok {b : Byte} {x y : Inst} :
    lineStep (.data b) x = .ok y ↔ x.st = .awaiting ∧ x.cnt.val < 16 ∧ y = afterBytes x [b] := by
  have hcnt (hlt : x.cnt.val < 16) : x.cnt + 1 = Fin.ofNat 17 (x.cnt.val + 1) := by
    apply Fin.ext
    rw [Fin.val_add_one_of_lt (Fin.lt_def.mpr hlt)]
    exact (Nat.mod_eq_of_lt (by omega)).symm
  constructor
  · intro h
    obtain ⟨hst, hlt, rfl⟩ := stepData_ok.mp h
    have hx := settle_of_settle_awaiting hst
    rw [hx] at hst hlt ⊢
    exact ⟨hst, hlt, by rw [hcnt hlt]; rfl⟩
  · rintro ⟨hst, hlt, rfl⟩
    rw [lineStep_of_not_terminal (terminal_false.mpr (.inr hst))]
    exact stepData_ok.mpr ⟨hst, hlt, by rw [hcnt hlt]; rfl⟩

/-- What a run of DATA lines can do, from any instance: it waits for bytes, they all fit, and they are stored. -/
theorem lineRun_data_ok {bytes : List Byte} {x y : Inst} (hne : bytes ≠ []) :
    lineRun (bytes.map .data) x = .ok y ↔
      x.st = .awaiting ∧ x.cnt.val + bytes.length ≤ 16 ∧ y = afterBytes x bytes := by
  induction bytes generalizing x with
  | nil => exact absurd rfl hne
  | cons b bs ih =>
    cases bs with
    | nil =>
      rw [List.map_singleton, lineRun_singleton, lineStep_data_ok]
      rfl
    | cons c bs =>
      rw [List.map_cons, lineRun, except_bind_ok]
      simp only [ih (List.cons_ne_nil c bs), lineStep_data_ok, List.length_cons]
      constructor
      · rintro ⟨_, ⟨hst, hlt, rfl⟩, -, hfit, rfl⟩
        rw [afterBytes_singleton_cnt hlt] at hfit
        exact ⟨hst, by omega, afterBytes_cons hlt b (c :: bs)⟩
      · rintro ⟨hst, hfit, rfl⟩
        have hlt : x.cnt.val < 16 := by omega
        exact ⟨_, ⟨hst, hlt, rfl⟩, afterBytes_singleton_st (by omega) b,
          by rw [afterBytes_singleton_cnt hlt]; omega, (afterBytes_cons hlt b (c :: bs)).symm⟩

/-- A run of DATA lines whose bytes fit. -/
theorem lineRun_data {bytes : List Byte} {x : Inst} (hst : x.st = .awaiting) (hcnt : x.cnt.val < 16)
    (hfit : x.cnt.val + bytes.length ≤ 16) : lineRun (bytes.map .data) x = .ok (afterBytes x bytes) := by
  cases bytes with
  | nil => rw [afterBytes_nil hst hcnt]; rfl
  | cons b bs => exact (lineRun_data_ok (List.cons_ne_nil b bs)).mpr ⟨hst, hfit, rfl⟩

/-- What the DATA lines of a trace can do (R49). -/
theorem runLines_readSteps_next {bytes : List Byte} {s t : State} (hne : bytes ≠ []) :
    runLines (readSteps bytes) s = .next t ↔
      ∃ x, s.insts[s.ch]? = some x ∧ x.st = .awaiting ∧ x.cnt.val + bytes.length ≤ 16 ∧
        t = s.setInst (afterBytes x bytes) := by
  obtain ⟨b, bs, rfl⟩ := List.exists_cons_of_ne_nil hne
  have hrun : runLines (readSteps (b :: bs)) s = onInst (lineRun ((b :: bs).map .data)) s :=
    runLines_cons_eq_onInst (.data b) (bs.map .data) s
  rw [hrun, onInst_next]
  simp only [lineRun_data_ok hne]
  exact ⟨fun ⟨x, _, hx, ⟨hst, hfit, hy⟩, ht⟩ => ⟨x, hx, hst, hfit, hy ▸ ht⟩,
    fun ⟨x, hx, hst, hfit, ht⟩ => ⟨x, _, hx, ⟨hst, hfit, rfl⟩, ht⟩⟩

/-- The lengths of READ and of FRAME (R49). -/
theorem readLengthOk_iff {bytes : List Byte} : readLengthOk bytes = true ↔ 1 ≤ bytes.length ∧ bytes.length ≤ 16 := by
  rw [readLengthOk, Bool.and_eq_true, decide_eq_true_iff, decide_eq_true_iff, Config.frameLen]

theorem frameLengthOk_iff {bytes : List Byte} : frameLengthOk bytes = true ↔ bytes.length = 16 := decide_eq_true_iff

/-- Settles O29: READ is a run of DATA lines, whose bytes are stored from the count on. -/
theorem readStoresItsBytesInOrder : Obligations.ReadStoresItsBytesInOrder := by
  intro s x bytes hx hwf hst hpos hfit
  have hne : bytes ≠ [] := List.ne_nil_of_length_pos hpos
  have hlen : readLengthOk bytes = true := readLengthOk_iff.mpr ⟨hpos, by omega⟩
  have hread : exec (.read bytes) s = .next (s.setInst (afterBytes x bytes)) :=
    (if_pos hlen).trans ((runLines_readSteps_next hne).mpr ⟨x, hx, hst, hfit, rfl⟩)
  exact ⟨afterBytes x bytes, hread, fun _ => memByte_storeBytes_inside hwf hfit,
    fun _ => memByte_storeBytes_outside, storeBytes_wf hwf hfit, afterBytes_cnt hfit, rfl, rfl⟩

/-! ### Lines that are no step (R48, R49, R72, R102) -/

/-- A line that has no expansion is refused by name (log entry 10). -/
theorem runTraceLine_illFormed {l : TraceLine} (h : l.wf = false) (s : State) :
    runTraceLine l s = .refused .illFormedLine := by
  cases l with
  | line l => exact if_neg (Bool.eq_false_iff.mp h)
  | conn lines => exact if_neg (Bool.eq_false_iff.mp h)

theorem runTrace_illFormed {l : TraceLine} (h : l.wf = false) (k : Nat) (t : List (Nat × TraceLine)) (s : State) :
    runTrace ((k, l) :: t) s = .refused .illFormedLine := by
  rw [runTrace, runTraceLine_illFormed h]

/-- No lines hold seventeen DATA in a row, from any instance (R72, R102). -/
theorem lineRun_ne_ok_of_overfull {before rest : List Basic} {bytes : List Byte} (h : 17 ≤ bytes.length) (x y : Inst) :
    lineRun (before ++ bytes.map .data ++ rest) x ≠ .ok y := by
  intro hrun
  rw [List.append_assoc, lineRun_append] at hrun
  obtain ⟨z, -, hrun⟩ := except_bind_ok.mp hrun
  rw [lineRun_append] at hrun
  obtain ⟨w, hdata, -⟩ := except_bind_ok.mp hrun
  have hne : bytes ≠ [] := List.ne_nil_of_length_pos (by omega)
  obtain ⟨-, hfit, -⟩ := (lineRun_data_ok hne).mp hdata
  omega

/-- A CONN whose lines hold seventeen DATA in a row is no step. -/
theorem exec_conn_ne_next_of_overfull {lines : List Line} {before rest : List Basic} {bytes : List Byte}
    (hlines : lines.flatMap lineSteps = before ++ bytes.map .data ++ rest) (h : 17 ≤ bytes.length) (s t : State) :
    exec (.conn lines) s ≠ .next t := by
  intro hnext
  obtain ⟨-, s', hrun, -⟩ := runTraceLine_next.mp (exec_conn lines s ▸ hnext)
  rw [runLines_cons_eq_onInst, hlines] at hrun
  obtain ⟨x, y, -, hrun, -⟩ := onInst_next.mp hrun
  exact lineRun_ne_ok_of_overfull (before := .openConn :: before) h x y hrun

/-- DATA lines are no trace where no byte is waited for, or where they do not all fit before the sixteenth (R72). -/
theorem runLines_readSteps_ne_next {bytes : List Byte} {s : State} {x : Inst} (hx : s.insts[s.ch]? = some x)
    (hpos : 1 ≤ bytes.length) (h : x.st ≠ .awaiting ∨ 16 < x.cnt.val + bytes.length) (t : State) :
    runLines (readSteps bytes) s ≠ .next t := by
  intro hrun
  obtain ⟨x', hx', hst, hfit, -⟩ := (runLines_readSteps_next (List.ne_nil_of_length_pos hpos)).mp hrun
  cases hx.symm.trans hx'
  obtain hst' | hfull := h
  · exact hst' hst
  · omega

/-- Settles O34: a line with no expansion is refused, and a run of DATA needs an instance that waits and room in its
frame. -/
theorem illFormedLinesAreNoSteps : Obligations.IllFormedLinesAreNoSteps := by
  refine ⟨fun s bytes h => ?_, fun s bytes h => ?_, fun s lines h => runTraceLine_illFormed (l := .conn lines) h s,
    fun s k l t h => runTrace_illFormed h k t s,
    fun s lines before rest bytes hlines h => exec_conn_ne_next_of_overfull hlines h s,
    fun s x hx _ => ⟨fun bytes h t ht => ?_, fun bytes h t ht => ?_, fun r h t ht => ?_⟩⟩
  · have hlen : ¬(1 ≤ bytes.length ∧ bytes.length ≤ 16) := by omega
    exact runTraceLine_illFormed (l := .line (.read bytes)) (Bool.eq_false_iff.mpr (mt readLengthOk_iff.mp hlen)) s
  · exact runTraceLine_illFormed (l := .line (.frame bytes)) (Bool.eq_false_iff.mpr (mt frameLengthOk_iff.mp h)) s
  · obtain ⟨hwf, hrun⟩ := runTraceLine_next.mp (exec_read bytes s ▸ ht)
    obtain ⟨hpos, -⟩ := readLengthOk_iff.mp hwf
    exact runLines_readSteps_ne_next hx hpos h t hrun
  · obtain ⟨hwf, hrun⟩ := runTraceLine_next.mp (exec_frame bytes s ▸ ht)
    have hlen : bytes.length = 16 := frameLengthOk_iff.mp hwf
    exact runLines_readSteps_ne_next hx (by omega) (h.imp_right fun hcnt => by omega) t hrun
  · obtain ⟨-, hrun⟩ := runTraceLine_next.mp (exec_record r s ▸ ht)
    have hlen := bytesOfFrame_length (encodeRecord r)
    exact runLines_readSteps_ne_next hx (by omega) (h.imp_right fun hcnt => by omega) t hrun

/-! ### Connections that reach an outcome (R77) -/

/-- The bytes of a connection, and the step after them, from OPEN. -/
theorem lineRun_data_append {bytes : List Byte} (hlen : bytes.length ≤ 16) (bs : List Basic) :
    lineRun (bytes.map .data ++ bs) openedInst = lineRun bs (afterBytes openedInst bytes) := by
  have hdata : lineRun (bytes.map .data) openedInst = .ok (afterBytes openedInst bytes) :=
    lineRun_data rfl (by decide) (by simpa [openedInst] using hlen)
  rw [lineRun_append, hdata]
  rfl

/-- The phase of a connection after its bytes. -/
theorem afterBytes_openedInst_st (bytes : List Byte) :
    (afterBytes openedInst bytes).st = if bytes.length = 16 then .decoded else .awaiting := by
  simp [afterBytes, openedInst]

/-- The one step after the bytes of a connection that still waits for bytes. -/
theorem lineRun_singleton_of_awaiting {b : Basic} {x y : Inst} (hst : x.st = .awaiting) (h : basicStep b x = .ok y) :
    lineRun [b] x = .ok y := by
  rw [lineRun_singleton, lineStep_of_not_terminal (terminal_false.mpr (.inr hst)), h]

/-- The events of a connection that reaches an outcome lead from OPEN to a terminal phase (R77). -/
theorem lineRun_endsConnection {events : List Basic} (h : endsConnection events) :
    ∃ y, lineRun events openedInst = .ok y ∧ terminal y.st = true := by
  have awaits {bytes : List Byte} (hlen : bytes.length ≤ 15) : (afterBytes openedInst bytes).st = .awaiting :=
    (afterBytes_openedInst_st bytes).trans (if_neg (by omega))
  obtain ⟨bytes, ⟨rfl, hlen⟩ | ⟨rfl, hlen⟩ | ⟨rfl, hlen⟩⟩ := h
  · have hst : (afterBytes openedInst bytes).st = .decoded := (afterBytes_openedInst_st bytes).trans (if_pos hlen)
    have hrun := lineRun_data_append hlen.le []
    rw [List.append_nil] at hrun
    exact ⟨_, hrun, congrArg terminal hst⟩
  · have hst := awaits hlen
    exact ⟨_, (lineRun_data_append (by omega) _).trans
      (lineRun_singleton_of_awaiting (b := .eos) hst (stepEos_ok.mpr ⟨hst, rfl⟩)), rfl⟩
  · have hst := awaits hlen
    exact ⟨_, (lineRun_data_append (by omega) _).trans
      (lineRun_singleton_of_awaiting (b := .ioerr) hst (stepIoerr_ok.mpr ⟨hst, rfl⟩)), rfl⟩

/-- A CONN in CLOSED whose events reach an outcome ends in CLOSED again (R77). -/
theorem connRun_endsConnection {lines : List Line} {x : Inst} (hst : x.st = .closed)
    (h : endsConnection (lines.flatMap lineSteps)) : connRun lines x = .ok closedInst := by
  obtain ⟨y, hrun, hterm⟩ := lineRun_endsConnection h
  have hopen : lineStep .openConn x = .ok openedInst :=
    (lineStep_of_not_terminal (terminal_false.mpr (.inl hst)) _).trans (stepOpen_ok.mpr ⟨hst, rfl⟩)
  have hlines : lineRun (.openConn :: lines.flatMap lineSteps) x = .ok y := except_bind_ok.mpr ⟨_, hopen, hrun⟩
  exact except_bind_ok.mpr ⟨y, hlines, congrArg Except.ok (settle_of_terminal hterm)⟩

/-- The labelled CONN line is a whole connection of an instance that stands in CLOSED (R77). -/
def WholeConnection (s : State) (e : Nat × List Line) : Prop :=
  (∃ x, s.insts[e.1]? = some x ∧ x.st = .closed) ∧ e.2.all Line.wf = true ∧ endsConnection (e.2.flatMap lineSteps)

/-- The state after a whole connection of instance `k`: it is CLOSED again. -/
def afterConnection (k : Nat) (s : State) : State := State.setInst closedInst { s with ch := k }

theorem runTraceLine_wholeConnection {s : State} {e : Nat × List Line} (h : WholeConnection s e) :
    runTraceLine (.conn e.2) { s with ch := e.1 } = .next (afterConnection e.1 s) := by
  obtain ⟨⟨x, hx, hst⟩, hwf, hends⟩ := h
  exact (exec_conn_eq_onInst hwf _).trans (onInst_of hx (connRun_endsConnection hst hends))

theorem afterConnection_same {s : State} {e : Nat × List Line} (h : WholeConnection s e) :
    (afterConnection e.1 s).insts[e.1]? = some closedInst := by
  obtain ⟨⟨x, hx, -⟩, -⟩ := h
  exact setInst_selected (s := { s with ch := e.1 }) hx closedInst

theorem afterConnection_other {k j : Nat} (h : j ≠ k) (s : State) : (afterConnection k s).insts[j]? = s.insts[j]? :=
  setInst_other (s := { s with ch := k }) h closedInst

/-- After a whole connection every other one is still possible, and so is a further one of the same instance. -/
theorem WholeConnection.after {s : State} {e e' : Nat × List Line} (h : WholeConnection s e)
    (h' : WholeConnection s e') : WholeConnection (afterConnection e.1 s) e' := by
  obtain ⟨⟨x, hx, hst⟩, hlines⟩ := h'
  refine ⟨?_, hlines⟩
  by_cases hk : e'.1 = e.1
  · exact ⟨closedInst, by rw [hk, afterConnection_same h], rfl⟩
  · exact ⟨x, (afterConnection_other hk s).trans hx, hst⟩

/-- A trace of CONN lines changes no instance but those its lines name (R26). -/
theorem runTrace_conns_other {t : List (Nat × List Line)} {s u : State} {k : Nat}
    (h : runTrace (t.map fun e => (e.1, .conn e.2)) s = .next u) (hk : ∀ e ∈ t, e.1 ≠ k) :
    u.insts[k]? = s.insts[k]? := by
  refine traceTouchesOnlyItsInstances _ s u k h fun l hl => ?_
  obtain ⟨e, he, heq⟩ := List.mem_map.mp hl
  exact hk e he (congrArg Prod.fst heq)

/-- A trace of whole connections runs and leaves the instances it names in CLOSED. -/
theorem runTrace_conns {t : List (Nat × List Line)} {s : State} (h : ∀ e ∈ t, WholeConnection s e) :
    ∃ u, runTrace (t.map fun e => (e.1, .conn e.2)) s = .next u ∧ ∀ e ∈ t, u.insts[e.1]? = some closedInst := by
  induction t generalizing s with
  | nil => exact ⟨s, rfl, fun _ he => absurd he List.not_mem_nil⟩
  | cons e t ih =>
    obtain ⟨hhead, htail⟩ := List.forall_mem_cons.mp h
    obtain ⟨u, hrun, hclosed⟩ := ih fun e' he' => hhead.after (htail e' he')
    refine ⟨u, runTrace_cons_next.mpr ⟨_, runTraceLine_wholeConnection hhead, hrun⟩,
      List.forall_mem_cons.mpr ⟨?_, hclosed⟩⟩
    by_cases hlater : ∃ e' ∈ t, e'.1 = e.1
    · obtain ⟨e', he', hk⟩ := hlater
      exact hk ▸ hclosed e' he'
    · have hlast : ∀ e' ∈ t, e'.1 ≠ e.1 := fun e' he' hk => hlater ⟨e', he', hk⟩
      exact (runTrace_conns_other hrun hlast).trans (afterConnection_same hhead)

/-- Settles O55, by induction on the lines: each is a whole connection where the one before has ended. -/
theorem traceOfConnectionsRuns : Obligations.TraceOfConnectionsRuns := by
  intro s t h
  obtain ⟨u, hrun, hclosed⟩ := runTrace_conns h
  exact ⟨u, hrun, hclosed, fun k hk => runTrace_conns_other hrun hk⟩

end Sys2Proof.Machine
end

section
/-! PROOFS of the family of the Frame Decoder: the six extractors (R53 to R58), Decode and Encode (R52, R61, R63), the
round trip of a record through the machine (R49, R73), and the bytes that steer nothing (R59). -/

namespace Sys2Proof.Machine

/-! ### Decode and Encode (R52, R61) -/

/-- Decode reads each field where Encode put it: a slice of vectors side by side is one of a single vector (R61). -/
theorem decodeFrame_encodeRecord (r : Record) : decodeFrame (encodeRecord r) = r := by
  simp [decodeFrame, fldDeviceId, fldSequenceNum, fldTimestamp, fldTemperature, fldHumidity, fldStatus, encodeRecord,
    BitVec.extractLsb'_append_eq_ite (w := 8), BitVec.extractLsb'_append_eq_ite (w := 16),
    BitVec.extractLsb'_append_eq_ite (w := 32)]

/-- The six slices meet without a gap and fill the frame vector (R53 to R58, R61). -/
theorem encodeRecord_decodeFrame (f : Frame) : encodeRecord (decodeFrame f) = f := by
  simp only [encodeRecord, decodeFrame, fldDeviceId, fldSequenceNum, fldTimestamp, fldTemperature, fldHumidity,
    fldStatus, BitVec.extractLsb'_append_extractLsb'_eq_extractLsb' (len₁ := 32),
    BitVec.extractLsb'_append_extractLsb'_eq_extractLsb' (len₁ := 16),
    BitVec.extractLsb'_append_extractLsb'_eq_extractLsb' (len₁ := 8)]
  exact BitVec.extractLsb'_eq_self

/-- Settles O20: the slices of Encode are the fields, and each byte of it is a slice of one field. -/
theorem encodeInvertsDecode : Obligations.EncodeInvertsDecode := by
  refine ⟨decodeFrame_encodeRecord, encodeRecord_decodeFrame, fun r => ?_⟩
  have hrange : List.range Config.frameLen = [0, 1, 2, 3, 4, 5, 6, 7, 8, 9, 10, 11, 12, 13, 14, 15] := rfl
  simp [bytesOfFrame, hrange, frameByte, encodeRecord, BitVec.extractLsb'_append_eq_ite (w := 8),
    BitVec.extractLsb'_append_eq_ite (w := 16), BitVec.extractLsb'_append_eq_ite (w := 32)]

/-! ### The round trip through the machine (R49, R61, R73) -/

/-- Sixteen bytes stored from offset 0 on are the whole frame vector, whatever stood there (R40). -/
theorem frameOf_storeBytes {bytes : List Byte} {m : Memory} (hm : m.wf = true) (hlen : bytes.length = 16) :
    frameOf (storeBytes m 0 bytes) = frameOfBytes bytes := by
  refine frameOf_eq_frameOfBytes fun i hi => ?_
  have hbyte := memByte_storeBytes_inside (i := i) hm (a := 0) (bytes := bytes) (by omega) (by omega)
  rwa [Nat.zero_add] at hbyte

/-- Sixteen bytes from count 0 on are reported as Decode of exactly those bytes (R73, R77). -/
theorem report_afterBytes {x : Inst} {bytes : List Byte} (hwf : x.buf.wf = true) (hcnt : x.cnt.val = 0)
    (hlen : bytes.length = 16) :
    report (afterBytes x bytes) = some (decodeFrame (frameOfBytes bytes), frameOfBytes bytes) := by
  have hst : (afterBytes x bytes).st = .decoded := if_pos (by omega)
  have hframe : frameOf (afterBytes x bytes).buf = frameOfBytes bytes := by
    rw [afterBytes, hcnt]
    exact frameOf_storeBytes hwf hlen
  rw [report_of_decoded hst, hframe]

/-- Sixteen DATA lines on a fresh connection end in DECODED, with the report of exactly their bytes (R49, R73). -/
theorem runLines_readSteps_fresh {s : State} {x : Inst} {bytes : List Byte} (hx : s.insts[s.ch]? = some x)
    (hwf : x.buf.wf = true) (hst : x.st = .awaiting) (hcnt : x.cnt.val = 0) (hlen : bytes.length = 16) :
    ∃ y, runLines (readSteps bytes) s = .next (s.setInst y) ∧ y.st = .decoded ∧ y.cnt.val = 16 ∧
      y.closeErr = x.closeErr ∧ report y = some (decodeFrame (frameOfBytes bytes), frameOfBytes bytes) := by
  have hfull : x.cnt.val + bytes.length = 16 := by omega
  have hrun : runLines (readSteps bytes) s = .next (s.setInst (afterBytes x bytes)) :=
    (runLines_readSteps_next (List.ne_nil_of_length_pos (by omega))).mpr ⟨x, hx, hst, hfull.le, rfl⟩
  exact ⟨afterBytes x bytes, hrun, if_pos hfull, (afterBytes_cnt hfull.le).trans hfull, rfl,
    report_afterBytes hwf hcnt hlen⟩

/-- Settles O32: RECORD runs DATA of the sixteen bytes of Encode, and Decode of them is the record. -/
theorem recordSentIsRecordReported : Obligations.RecordSentIsRecordReported := by
  intro s x r hx hwf hst hcnt
  have hframe := runLines_readSteps_fresh hx hwf hst hcnt (bytesOfFrame_length (encodeRecord r))
  rwa [frameOfBytes_bytesOfFrame, decodeFrame_encodeRecord] at hframe

/-! ### The extractors (R53 to R58) -/

/-- The number of a slice (R10, R11). -/
theorem extractLsb'_toNat_div {w : Nat} (v : BitVec w) (start len : Nat) :
    (v.extractLsb' start len).toNat = v.toNat / 2 ^ start % 2 ^ len := by
  rw [BitVec.extractLsb'_toNat, Nat.shiftRight_eq_div_pow]

/-- The top slice needs no remainder: no bit stands above it (R58). -/
theorem fldStatus_toNat (f : Frame) : (fldStatus f).toNat = f.toNat / 2 ^ 120 := by
  have hlt : f.toNat / 2 ^ 120 < 2 ^ 8 := Nat.div_lt_of_lt_mul f.isLt
  rw [fldStatus, extractLsb'_toNat_div, Nat.mod_eq_of_lt hlt]

/-- The signed number of 32 bits by the size of the unsigned one (R10, R55). -/
theorem sint_of_toNat {v : BitVec 32} {n : Nat} (h : v.toNat = n) :
    sint v = if n < 2 ^ 31 then (n : Int) else (n : Int) - 2 ^ 32 := by
  rw [sint_eq_toInt, BitVec.toInt_eq_toNat_cond, h]
  split <;> split <;> omega

/-- Settles O17: the numbers of the slices, and the slices of an accumulator as its assembled bytes. -/
theorem extractorsReadTheirSlices : Obligations.ExtractorsReadTheirSlices := by
  refine ⟨fun f => ⟨?_, extractLsb'_toNat_div f 8 16, sint_of_toNat (extractLsb'_toNat_div f 24 32),
    extractLsb'_toNat_div f 56 32, extractLsb'_toNat_div f 88 32, fldStatus_toNat f⟩, fun m => ?_⟩
  · exact (extractLsb'_toNat_div f 0 8).trans (by rw [pow_zero, Nat.div_one])
  · rw [fldDeviceId_frameOf, fldSequenceNum_frameOf, fldTimestamp_frameOf, fldTemperature_frameOf, fldHumidity_frameOf,
      fldStatus_frameOf]
    exact ⟨memRead_inside (by decide) m, memRead_inside (by decide) m, memRead_inside (by decide) m,
      memRead_inside (by decide) m, memRead_inside (by decide) m, memRead_inside (by decide) m⟩

/-! ### The float ports (R63) -/

/-- An accumulator with the bytes of a frame vector has that frame vector (R40). -/
theorem frameOf_eq_of_frameByte {m : Memory} {f : Frame} (h : ∀ a < 16, memByte m a = frameByte f a) :
    frameOf m = f := by
  rw [← frameOfBytes_bytesOfFrame f]
  refine frameOf_eq_frameOfBytes fun a ha => ?_
  rw [h a ha, ← frameByte_frameOfBytes _ a ha, frameOfBytes_bytesOfFrame]

/-- Settles O21: the accumulator holds Encode of the record, so the ports show the record. -/
theorem floatPatternsReachThePortsUnchanged : Obligations.FloatPatternsReachThePortsUnchanged := by
  intro x r hst hbytes
  have hshown : shownRecord x = r := by
    rw [shownRecord_of_decoded hst, frameOf_eq_of_frameByte hbytes, decodeFrame_encodeRecord]
  exact ⟨congrArg Record.temperature hshown, congrArg Record.humidity hshown⟩

/-! ### Bytes steer nothing (R59, R65) -/

/-- What a run of one more step can do. -/
theorem instRun_cons_ok {b : Basic} {bs : List Basic} {x y : Inst} :
    instRun (b :: bs) x = .ok y ↔ ∃ z, basicStep b x = .ok z ∧ instRun bs z = .ok y := by
  rw [instRun]
  cases basicStep b x <;> simp

/-- DATA of another byte, from the same phase and count, reaches the same phase and count (R67). -/
theorem stepData_same_st_cnt {b : Byte} {x x' y : Inst} (hst : x.st = x'.st) (hcnt : x.cnt = x'.cnt)
    (h : stepData b x = .ok y) (b' : Byte) :
    ∃ y', stepData b' x' = .ok y' ∧ y.st = y'.st ∧ y.cnt = y'.cnt := by
  obtain ⟨hawait, hlt, rfl⟩ := stepData_ok.mp h
  rw [hst] at hawait
  rw [hcnt] at hlt
  exact ⟨_, stepData_ok.mpr ⟨hawait, hlt, rfl⟩, by rw [hcnt], by rw [hcnt]⟩

/-- Settles O52, by induction on the bytes: each DATA keeps the two runs at one phase and count. -/
theorem byteValuesDoNotSteerTheMachine : Obligations.ByteValuesDoNotSteerTheMachine := by
  intro bs
  induction bs with
  | nil =>
    intro bs' x x' y hlen hst hcnt hrun
    obtain rfl : bs' = [] := List.eq_nil_of_length_eq_zero hlen.symm
    cases hrun
    exact ⟨x', rfl, hst.symm, hcnt.symm⟩
  | cons b bs ih =>
    intro bs' x x' y hlen hst hcnt hrun
    obtain ⟨b', bs', rfl⟩ := List.exists_cons_of_length_eq_add_one hlen.symm
    obtain ⟨z, hstep, hrun⟩ := instRun_cons_ok.mp hrun
    obtain ⟨z', hstep', hst', hcnt'⟩ := stepData_same_st_cnt hst hcnt hstep b'
    obtain ⟨y', hrun', hy⟩ := ih bs' z z' y (Nat.succ.inj hlen) hst' hcnt' hrun
    exact ⟨y', instRun_cons_ok.mpr ⟨z', hstep', hrun'⟩, hy⟩

/-! ### The readers' instructions (R52 to R58) -/

/-- Settles O18: Decode of sixteen bytes leaves its record in the result. -/
theorem decodeCompletesWithTheRecord : Obligations.DecodeCompletesWithTheRecord :=
  fun s _ hlen => exec_decode_of_length hlen s

/-- Settles O19: each extractor leaves its slice in the result. -/
theorem extractorsCompleteWithTheirField : Obligations.ExtractorsCompleteWithTheirField :=
  fun _ _ => ⟨rfl, rfl, rfl, rfl, rfl, rfl⟩

end Sys2Proof.Machine
end

section
/-! PROOFS of the family of the stream events: the six steps and the transition table (R65 to R70), acceptance (R72), how
bytes are grouped (R73), the outcome of a connection (R74, R77), full frames (R102), and silence (R71, R99, R104). -/

namespace Sys2Proof.Machine

/-! ### Opens and closes balance (R74) -/

theorem openCount_of_closed {x : Inst} (h : x.st = .closed) : x.openCount = 0 := if_pos h

theorem openCount_of_ne_closed {x : Inst} (h : x.st ≠ .closed) : x.openCount = 1 := if_neg h

theorem ne_closed_and_ne_awaiting_of_terminal {st : Phase} (h : terminal st = true) : st ≠ .closed ∧ st ≠ .awaiting :=
  ⟨fun hst => by simp [hst, terminal] at h, fun hst => by simp [hst, terminal] at h⟩

/-- DATA leaves an instance in AWAITING or enters DECODED. -/
theorem stepData_st_ne_closed {b : Byte} {x y : Inst} (h : stepData b x = .ok y) : y.st ≠ .closed := by
  obtain ⟨-, -, rfl⟩ := stepData_ok.mp h
  simp only
  split <;> decide

/-- A step other than RESET: an OPEN opens a connection, a CLOSE closes one, and no other step does either. -/
theorem basicStep_openCount {b : Basic} {x y : Inst} (hb : isResetStep b = false) (h : basicStep b x = .ok y) :
    (if isCloseStep b then 1 else 0) + y.openCount = (if isOpenStep b then 1 else 0) + x.openCount := by
  cases b with
  | openConn =>
    obtain ⟨hst, rfl⟩ := stepOpen_ok.mp h
    rw [openCount_of_closed hst]
    rfl
  | data b =>
    obtain ⟨hst, -⟩ := stepData_ok.mp h
    rw [openCount_of_ne_closed (stepData_st_ne_closed h), openCount_of_ne_closed (x := x) (by simp [hst])]
    rfl
  | eos =>
    obtain ⟨hst, rfl⟩ := stepEos_ok.mp h
    rw [openCount_of_ne_closed (x := x) (by simp [hst])]
    rfl
  | ioerr =>
    obtain ⟨hst, rfl⟩ := stepIoerr_ok.mp h
    rw [openCount_of_ne_closed (x := x) (by simp [hst])]
    rfl
  | close cf =>
    obtain ⟨ht, rfl⟩ := stepClose_ok.mp h
    rw [openCount_of_ne_closed (ne_closed_and_ne_awaiting_of_terminal ht).1]
    rfl
  | reset => cases hb

/-- Settles O51, by induction on the steps of the run. -/
theorem everyConnectionIsClosedExactlyOnce : Obligations.EveryConnectionIsClosedExactlyOnce := by
  intro bs
  induction bs with
  | nil =>
    intro x y h _
    cases h
    rfl
  | cons b bs ih =>
    intro x y h hno
    obtain ⟨z, hstep, hrun⟩ := instRun_cons_ok.mp h
    rw [List.all_cons, Bool.and_eq_true, Bool.not_eq_true'] at hno
    obtain ⟨hb, hbs⟩ := hno
    have hhead := basicStep_openCount hb hstep
    have htail := ih z y hrun hbs
    rw [List.countP_cons, List.countP_cons]
    omega

/-! ### The named stops (R65, R72, R93) -/

theorem stepOpen_refused {x : Inst} (h : x.st ≠ .closed) : stepOpen x = .error (.notAccepted x.st .openConn) :=
  if_neg (mt inReady_openConn.mp h)

theorem stepData_refused {x : Inst} (h : x.st ≠ .awaiting) (b : Byte) :
    stepData b x = .error (.notAccepted x.st .data) :=
  if_neg (mt inReady_data.mp h)

theorem stepEos_refused {x : Inst} (h : x.st ≠ .awaiting) : stepEos x = .error (.notAccepted x.st .eos) :=
  if_neg (mt inReady_eos.mp h)

theorem stepIoerr_refused {x : Inst} (h : x.st ≠ .awaiting) : stepIoerr x = .error (.notAccepted x.st .ioerr) :=
  if_neg (mt inReady_ioerr.mp h)

theorem stepClose_refused {x : Inst} (h : x.st = .closed ∨ x.st = .awaiting) (cf : Bool) :
    stepClose cf x = .error (.closeNotEnabled x.st) :=
  if_neg (Bool.eq_false_iff.mp (terminal_false.mpr h))

/-- Settles O13: each instruction is its step of the selected instance. -/
theorem unacceptableStepsAreRefusedByName : Obligations.UnacceptableStepsAreRefusedByName :=
  fun _ _ hx =>
    ⟨fun h => onInst_of_error hx (stepOpen_refused h), fun h b => onInst_of_error hx (stepData_refused h b),
      fun h => onInst_of_error hx (stepEos_refused h), fun h => onInst_of_error hx (stepIoerr_refused h),
      fun h cf => onInst_of_error hx (stepClose_refused h cf)⟩

/-- A refused step has no next state. -/
theorem onInst_ne_next {f : Inst → Except Refusal Inst} {s : State} {x : Inst} {r : Refusal}
    (hx : s.insts[s.ch]? = some x) (hf : f x = .error r) (t : State) : onInst f s ≠ .next t := by
  rw [onInst_of_error hx hf]
  exact nofun

/-! ### Acceptance (R72) -/

/-- OPEN is acceptable in CLOSED, the other three events in AWAITING. -/
theorem inReady_iff {st : Phase} {kind : EventKind} :
    inReady st kind = true ↔
      (st = .closed ∧ kind = .openConn) ∨ (st = .awaiting ∧ (kind = .data ∨ kind = .eos ∨ kind = .ioerr)) := by
  cases kind with
  | data => simp [inReady_data]
  | eos => simp [inReady_eos]
  | ioerr => simp [inReady_ioerr]
  | openConn => simp [inReady_openConn]

/-- An event kind and its code (R45). -/
theorem kindOfCode_eq_iff {kind : BitVec 2} {k : EventKind} : kindOfCode kind = k ↔ kind = kindCode k := by
  constructor
  · rintro rfl
    exact (kindCode_kindOfCode kind).symm
  · rintro rfl
    exact kindOfCode_kindCode k

/-- Settles O27: the port is acceptance of the kind that the code names. -/
theorem acceptanceIsOfPhaseAndKindAlone : Obligations.AcceptanceIsOfPhaseAndKindAlone := by
  intro x kind
  rw [inReadyPort, inReady_iff]
  simp only [kindOfCode_eq_iff, kindCode]

/-! ### The six steps (R66 to R70) -/

/-- Settles O8: OPEN leaves the instance as `openedInst`. -/
theorem openStartsAConnection : Obligations.OpenStartsAConnection := by
  refine ⟨fun d => rfl, fun s x hx => ⟨fun hst => ?_, fun hst => onInst_ne_next hx (stepOpen_refused hst)⟩⟩
  exact ⟨openedInst, onInst_of hx (stepOpen_ok.mpr ⟨hst, rfl⟩), rfl, rfl, fun _ => rfl, rfl⟩

/-- DATA of an instance that waits for a byte and has room for it. -/
theorem stepData_of_awaiting {x : Inst} (hst : x.st = .awaiting) (hlt : x.cnt.val < 16) (b : Byte) :
    stepData b x = .ok (afterBytes x [b]) := by
  have hline : lineStep (.data b) x = .ok (afterBytes x [b]) := lineStep_data_ok.mpr ⟨hst, hlt, rfl⟩
  rwa [lineStep_of_not_terminal (terminal_false.mpr (.inr hst))] at hline

/-- Settles O9: DATA stores one byte at the count, and an instance with all sixteen reports them. -/
theorem dataStoresItsByteAtTheCount : Obligations.DataStoresItsByteAtTheCount := by
  refine ⟨fun b => rfl, fun s x b hx hwf =>
    ⟨fun hst hcnt => ?_, fun hst => onInst_ne_next hx (stepData_refused hst b)⟩⟩
  have hlt : x.cnt.val < 16 := by omega
  exact ⟨afterBytes x [b], onInst_of hx (stepData_of_awaiting hst hlt b), memByte_memPut_same b hwf,
    fun a ha => memByte_memPut_other x.buf b ha, memPut_wf hlt b hwf, afterBytes_singleton_cnt hlt b, rfl,
    fun hlast => report_of_decoded (if_pos (by rw [List.length_singleton, hlast])), rfl⟩

/-- What the ports show where a stream stopped short: a request to close, and no record (R20, R68, R69). -/
theorem outputs_of_stopped {y : Inst} (h : y.st = .shortRead ∨ y.st = .ioError) :
    (outputs y).recValid = false ∧ (outputs y).closeReq = true ∧ (outputs y).recDeviceId = 0#8 ∧
      (outputs y).recSequenceNum = 0#16 ∧ (outputs y).recTimestamp = 0#32 ∧ (outputs y).recTemperature = 0#32 ∧
      (outputs y).recHumidity = 0#32 ∧ (outputs y).recStatus = 0#8 ∧ (outputs y).recRaw = 0#128 ∧ report y = none := by
  obtain ⟨hvalid, hclose, -, hzero⟩ := portsShowTheReportInDecodedOnly y
  have hne : y.st ≠ .decoded := by obtain h | h := h <;> simp [h]
  exact ⟨Bool.eq_false_iff.mpr (mt hvalid.mp hne), hclose.mpr (.inr h), hzero hne⟩

/-- Settles O10: EOS changes the phase alone. -/
theorem eosRaisesShortRead : Obligations.EosRaisesShortRead := by
  refine ⟨fun d => rfl, fun s x hx => ⟨fun hst => ?_, fun hst => onInst_ne_next hx (stepEos_refused hst)⟩⟩
  exact ⟨_, onInst_of hx (stepEos_ok.mpr ⟨hst, rfl⟩), rfl, rfl, rfl, rfl, outputs_of_stopped (.inl rfl)⟩

/-- Settles O11: IOERR changes the phase alone. -/
theorem ioerrRaisesIoError : Obligations.IoerrRaisesIoError := by
  refine ⟨fun d => rfl, fun s x hx => ⟨fun hst => ?_, fun hst => onInst_ne_next hx (stepIoerr_refused hst)⟩⟩
  exact ⟨_, onInst_of hx (stepIoerr_ok.mpr ⟨hst, rfl⟩), rfl, rfl, rfl, rfl, outputs_of_stopped (.inr rfl)⟩

/-- In a terminal phase the only steps enabled are CLOSE and RESET (R70). -/
theorem basicStep_of_terminal {b : Basic} {x y : Inst} (ht : terminal x.st = true) (h : basicStep b x = .ok y) :
    b = .reset ∨ ∃ c, b = .close c := by
  obtain ⟨hnc, hna⟩ := ne_closed_and_ne_awaiting_of_terminal ht
  cases b with
  | openConn => exact absurd (stepOpen_ok.mp h).1 hnc
  | data b => exact absurd (stepData_ok.mp h).1 hna
  | eos => exact absurd (stepEos_ok.mp h).1 hna
  | ioerr => exact absurd (stepIoerr_ok.mp h).1 hna
  | close cf => exact .inr ⟨cf, rfl⟩
  | reset => exact .inl rfl

/-- Settles O12: CLOSE leaves a cleared instance in CLOSED, with the close result in its flag. -/
theorem closeReturnsToClosed : Obligations.CloseReturnsToClosed := by
  intro s x cf hx
  refine ⟨fun h => ?_, fun h => onInst_ne_next hx (stepClose_refused h cf)⟩
  have ht := terminal_iff.mpr h
  exact ⟨⟨_, onInst_of hx (stepClose_ok.mpr ⟨ht, rfl⟩), rfl, rfl, fun _ => rfl, rfl, rfl⟩, ht,
    fun b y => basicStep_of_terminal ht⟩

/-! ### The transition table (R65) -/

/-- The table's entry for what a step leads to: the next phase and count, if there are any. -/
def tableEntry (next : Except Refusal Inst) : Option (Phase × Nat) := next.toOption.map fun y => (y.st, y.cnt.val)

theorem tableEntry_of_ok {next : Except Refusal Inst} {y : Inst} (h : next = .ok y) :
    tableEntry next = some (y.st, y.cnt.val) := by
  rw [h]
  rfl

theorem tableEntry_of_error {next : Except Refusal Inst} {r : Refusal} (h : next = .error r) :
    tableEntry next = none := by
  rw [h]
  rfl

/-- Settles O14: column by column, the phases that enable the step and the others, which refuse it. -/
theorem transitionsAreTheTable : Obligations.TransitionsAreTheTable := by
  intro b x hinv
  obtain ⟨-, -, hcnt, -⟩ := hinv
  cases b with
  | openConn =>
    cases hst : x.st with
    | closed => exact tableEntry_of_ok (stepOpen_ok.mpr ⟨hst, rfl⟩)
    | awaiting | decoded | shortRead | ioError => exact tableEntry_of_error (stepOpen_refused (by simp [hst]))
  | data b =>
    cases hst : x.st with
    | awaiting =>
      have hlt : x.cnt.val < 16 := Nat.lt_succ_of_le (hcnt hst)
      refine (tableEntry_of_ok (stepData_of_awaiting hst hlt b)).trans ?_
      rw [afterBytes_singleton_cnt hlt]
      by_cases hlast : x.cnt.val = 15 <;> simp [afterBytes, hlast]
    | closed | decoded | shortRead | ioError => exact tableEntry_of_error (stepData_refused (by simp [hst]) b)
  | eos =>
    cases hst : x.st with
    | awaiting => exact tableEntry_of_ok (stepEos_ok.mpr ⟨hst, rfl⟩)
    | closed | decoded | shortRead | ioError => exact tableEntry_of_error (stepEos_refused (by simp [hst]))
  | ioerr =>
    cases hst : x.st with
    | awaiting => exact tableEntry_of_ok (stepIoerr_ok.mpr ⟨hst, rfl⟩)
    | closed | decoded | shortRead | ioError => exact tableEntry_of_error (stepIoerr_refused (by simp [hst]))
  | close cf =>
    cases hst : x.st with
    | closed | awaiting => exact tableEntry_of_error (stepClose_refused (by simp [hst]) cf)
    | decoded | shortRead | ioError => exact tableEntry_of_ok (stepClose_ok.mpr ⟨by rw [hst]; rfl, rfl⟩)
  | reset => rfl

/-! ### How bytes are grouped (R73) -/

theorem exec_read_of_length {bytes : List Byte} (hpos : 1 ≤ bytes.length) (hle : bytes.length ≤ 16) :
    exec (.read bytes) = runLines (readSteps bytes) :=
  funext fun _ => if_pos (readLengthOk_iff.mpr ⟨hpos, hle⟩)

/-- Settles O30: the DATA lines of two reads are those of one. -/
theorem groupingOfReadsMakesNoDifference : Obligations.GroupingOfReadsMakesNoDifference := by
  intro s a b ha hb hab
  have hlen : (a ++ b).length = a.length + b.length := List.length_append
  calc exec (.read (a ++ b)) s
      = runLines (readSteps a ++ readSteps b) s := by
        rw [exec_read_of_length (by omega) (by omega), readSteps, List.map_append]
        rfl
    _ = thenRun (exec (.read a) s) (exec (.read b)) := by
        rw [exec_read_of_length ha (by omega), exec_read_of_length hb (by omega)]
        exact runLines_append (readSteps a) (readSteps b) s

/-- Settles O31: FRAME is sixteen DATA lines. -/
theorem frameOnFreshConnectionIsDecoded : Obligations.FrameOnFreshConnectionIsDecoded := by
  intro s x bytes hx hwf hst hcnt hlen
  have hframe : exec (.frame bytes) s = runLines (readSteps bytes) s := if_pos (frameLengthOk_iff.mpr hlen)
  rw [hframe]
  exact runLines_readSteps_fresh hx hwf hst hcnt hlen

/-! ### The outcome of a connection (R77) -/

/-- A CONN in CLOSED, by the lines after its OPEN. -/
theorem connRun_of_closed {lines : List Line} {x y : Inst} (hst : x.st = .closed)
    (h : lineRun (lines.flatMap lineSteps) openedInst = .ok y) : connRun lines x = .ok (settle y) := by
  have hopen : lineStep .openConn x = .ok openedInst :=
    (lineStep_of_not_terminal (terminal_false.mpr (.inl hst)) _).trans (stepOpen_ok.mpr ⟨hst, rfl⟩)
  exact except_bind_ok.mpr ⟨y, except_bind_ok.mpr ⟨_, hopen, h⟩, rfl⟩

/-- A CONN takes the CLOSE of the connection before it first. -/
theorem connRun_settle (lines : List Line) (x : Inst) : connRun lines (settle x) = connRun lines x := by
  simp only [connRun, lineRun, lineStep_openConn_settle]

theorem connRun_of_terminal {x : Inst} (h : terminal x.st = true) (lines : List Line) :
    connRun lines closedInst = connRun lines x := by
  rw [← settle_of_terminal h, connRun_settle]

/-- A CONN in AWAITING is no step: its OPEN is not accepted. -/
theorem connRun_ne_ok_of_awaiting {lines : List Line} {x : Inst} (hst : x.st = .awaiting) (y : Inst) :
    connRun lines x ≠ .ok y := by
  intro h
  obtain ⟨_, hlines, -⟩ := except_bind_ok.mp h
  obtain ⟨_, hopen, -⟩ := except_bind_ok.mp hlines
  rw [lineStep_of_not_terminal (terminal_false.mpr (.inr hst))] at hopen
  obtain ⟨hclosed, -⟩ := stepOpen_ok.mp hopen
  rw [hst] at hclosed
  cases hclosed

/-- A step that the selected instance takes alike from another value of it. -/
theorem onInst_setInst {f : Inst → Except Refusal Inst} {s : State} {x y : Inst} (hx : s.insts[s.ch]? = some x)
    (h : f y = f x) : onInst f (s.setInst y) = onInst f s := by
  cases hf : f x with
  | error r => rw [onInst_of_error hx hf, onInst_of_error (setInst_selected hx y) (h.trans hf)]
  | ok z => rw [onInst_of hx hf, onInst_of (setInst_selected hx y) (h.trans hf), setInst_setInst]

theorem afterBytes_openedInst_cnt {bytes : List Byte} (h : bytes.length ≤ 16) :
    (afterBytes openedInst bytes).cnt.val = bytes.length := by
  have hzero : openedInst.cnt.val + bytes.length = bytes.length := Nat.zero_add _
  rw [afterBytes_cnt (hzero.trans_le h), hzero]

/-- The bytes of a connection stand in its accumulator in stream order (R73). -/
theorem memByte_afterBytes_openedInst {bytes : List Byte} (h : bytes.length ≤ 16) {i : Nat} (hi : i < bytes.length) :
    memByte (afterBytes openedInst bytes).buf i = bytes.getD i 0x00#8 := by
  have hbyte := memByte_storeBytes_inside memClear_wf (a := 0) (by omega) hi
  rwa [Nat.zero_add] at hbyte

/-- Fewer than sixteen bytes leave a connection in AWAITING. -/
theorem lineRun_data_openedInst {bytes : List Byte} (h : bytes.length ≤ 15) :
    lineRun (bytes.map .data) openedInst = .ok (afterBytes openedInst bytes) ∧
      (afterBytes openedInst bytes).st = .awaiting := by
  have hrun := lineRun_data_append (bytes := bytes) (by omega) []
  rw [List.append_nil] at hrun
  exact ⟨hrun, (afterBytes_openedInst_st bytes).trans (if_neg (by omega))⟩

/-- A run with one more line at its end. -/
theorem lineRun_append_singleton {events : List Basic} {b : Basic} {x y z : Inst} (h : lineRun events x = .ok y)
    (hb : lineStep b y = .ok z) : lineRun (events ++ [b]) x = .ok z := by
  rw [lineRun_append]
  exact except_bind_ok.mpr ⟨y, h, (lineRun_singleton b y).trans hb⟩

/-- Settles O33: a CONN is `connRun` of the selected instance. -/
theorem connectionRunsToItsOutcome : Obligations.ConnectionRunsToItsOutcome := by
  intro s x lines hx hlines
  rw [exec_conn_eq_onInst hlines]
  have runs {y : Inst} (h : connRun lines x = .ok y) : onInst (connRun lines) s = .next (s.setInst y) := onInst_of hx h
  refine ⟨fun hst hends => runs (connRun_endsConnection hst hends), fun hst events cf hev hends => ?_,
    fun hst bytes hev hlen => ?_, fun hst hends => ?_, fun hst => ?_, fun hst events hev hevents => ?_,
    fun hst t ht => ?_⟩
  · obtain ⟨y, hrun, hterm⟩ := lineRun_endsConnection hends
    have hclose : lineStep (.close cf) y = .ok { buf := memClear, cnt := 0, st := .closed, closeErr := cf } :=
      stepClose_ok.mpr ⟨hterm, rfl⟩
    exact runs (connRun_of_closed hst (hev ▸ lineRun_append_singleton hrun hclose))
  · obtain ⟨hrun, hwait⟩ := lineRun_data_openedInst hlen
    have hset := settle_of_not_terminal (terminal_false.mpr (.inr hwait))
    have hconn := connRun_of_closed hst (hev ▸ hrun)
    rw [hset] at hconn
    exact ⟨_, runs hconn, hwait, afterBytes_openedInst_cnt (by omega), rfl,
      fun i hi => memByte_afterBytes_openedInst (by omega) hi⟩
  · exact runs ((connRun_of_terminal (terminal_iff.mpr hst) lines).symm.trans (connRun_endsConnection rfl hends))
  · rw [exec_conn_eq_onInst hlines]
    exact (onInst_setInst hx (connRun_of_terminal (terminal_iff.mpr hst) lines)).symm
  · have hrun : ∃ y, lineRun events openedInst = .ok y := by
      obtain hends | ⟨bytes, rfl, hlen⟩ := hevents
      · obtain ⟨y, hrun, -⟩ := lineRun_endsConnection hends
        exact ⟨y, hrun⟩
      · exact ⟨_, (lineRun_data_openedInst hlen).1⟩
    obtain ⟨y, hrun⟩ := hrun
    have hreset : lineStep .reset y = .ok closedInst := rfl
    exact runs (connRun_of_closed hst (hev ▸ lineRun_append_singleton hrun hreset))
  · obtain ⟨x', y, hx', hy, -⟩ := onInst_next.mp ht
    cases hx.symm.trans hx'
    exact connRun_ne_ok_of_awaiting hst y hy

/-! ### Full frames in labelled traces (R72, R102) -/

/-- A line that an instance can take after the CLOSE it forces, it can take before, with the same outcome. -/
theorem lineStep_of_settle {b : Basic} {x y : Inst} (h : lineStep b (settle x) = .ok y) : lineStep b x = .ok y := by
  cases b with
  | close cf =>
    obtain ⟨ht, -⟩ := stepClose_ok.mp h
    rw [settle_terminal] at ht
    cases ht
  | reset => exact h
  | openConn | data b | eos | ioerr => simpa only [lineStep, settle_settle] using h

/-- A run from an instance after the CLOSE it forces is one from the instance itself. -/
theorem lineRun_of_settle {bs : List Basic} {x y : Inst} (h : lineRun bs (settle x) = .ok y) :
    ∃ z, lineRun bs x = .ok z := by
  cases bs with
  | nil => exact ⟨x, rfl⟩
  | cons b bs =>
    obtain ⟨w, hb, hbs⟩ := except_bind_ok.mp h
    exact ⟨y, except_bind_ok.mpr ⟨w, lineStep_of_settle hb, hbs⟩⟩

/-- A line of a trace that has an expansion states at least one step (R49). -/
theorem statedSteps_ne_nil {l : TraceLine} (h : l.wf = true) : statedSteps l ≠ [] := by
  have bytes_ne_nil {bytes : List Byte} (hpos : 1 ≤ bytes.length) : readSteps bytes ≠ [] :=
    List.map_eq_nil_iff.not.mpr (List.ne_nil_of_length_pos hpos)
  cases l with
  | conn lines => exact List.cons_ne_nil _ _
  | line l =>
    cases l with
    | step b => exact List.cons_ne_nil b []
    | read bytes => exact bytes_ne_nil (readLengthOk_iff.mp h).1
    | frame bytes => exact bytes_ne_nil (by rw [frameLengthOk_iff.mp h]; decide)
    | record r => exact bytes_ne_nil (by rw [bytesOfFrame_length]; decide)

theorem runLines_next {bs : List Basic} {s u : State} (hne : bs ≠ []) :
    runLines bs s = .next u ↔ ∃ x y, s.insts[s.ch]? = some x ∧ lineRun bs x = .ok y ∧ u = s.setInst y := by
  obtain ⟨b, bs, rfl⟩ := List.exists_cons_of_ne_nil hne
  rw [runLines_cons_eq_onInst, onInst_next]

theorem forceClose_setInst {s : State} {x : Inst} (hx : s.insts[s.ch]? = some x) (y : Inst) :
    forceClose (s.setInst y) = .next (s.setInst (settle y)) := by
  rw [forceClose_eq_onInst, onInst_next]
  exact ⟨y, settle y, setInst_selected hx y, rfl, (setInst_setInst s y (settle y)).symm⟩

/-- A line of a trace that runs is its stated steps, run by the selected instance, and at most a CLOSE after them. -/
theorem runTraceLine_next_lineRun {l : TraceLine} {s u : State} (h : runTraceLine l s = .next u) :
    ∃ x y z, s.insts[s.ch]? = some x ∧ lineRun (statedSteps l) x = .ok y ∧ (z = y ∨ z = settle y) ∧
      u = s.setInst z := by
  obtain ⟨hwf, h⟩ := runTraceLine_next.mp h
  have hne := statedSteps_ne_nil hwf
  cases l with
  | line l =>
    obtain ⟨x, y, hx, hrun, hu⟩ := (runLines_next hne).mp h
    exact ⟨x, y, y, hx, hrun, .inl rfl, hu⟩
  | conn lines =>
    obtain ⟨s', hlines, hclose⟩ := h
    obtain ⟨x, y, hx, hrun, rfl⟩ := (runLines_next hne).mp hlines
    rw [forceClose_setInst hx] at hclose
    cases hclose
    exact ⟨x, y, settle y, hx, hrun, .inr rfl, rfl⟩

/-- The steps that a trace which runs states for an instance are a run of that instance, whatever lines of others stand
among them. -/
theorem runTrace_next_lineRun {t : List (Nat × TraceLine)} {s u : State} {k : Nat} (h : runTrace t s = .next u)
    (hne : stepsOf k t ≠ []) : ∃ x y, s.insts[k]? = some x ∧ lineRun (stepsOf k t) x = .ok y := by
  induction t generalizing s with
  | nil => exact absurd rfl hne
  | cons e t ih =>
    obtain ⟨j, l⟩ := e
    obtain ⟨s', hl, ht⟩ := runTrace_cons_next.mp h
    obtain ⟨x, y, z, hx, hrun, hz, rfl⟩ := runTraceLine_next_lineRun hl
    by_cases hj : j = k
    · subst hj
      have hsteps : stepsOf j ((j, l) :: t) = statedSteps l ++ stepsOf j t := by simp [stepsOf]
      have hrest : ∃ w, lineRun (stepsOf j t) y = .ok w := by
        by_cases hnil : stepsOf j t = []
        · exact ⟨y, by rw [hnil]; rfl⟩
        · obtain ⟨x', w, hx', hw⟩ := ih ht hnil
          rw [setInst_selected hx z] at hx'
          cases hx'
          obtain rfl | rfl := hz
          · exact ⟨w, hw⟩
          · exact lineRun_of_settle hw
      obtain ⟨w, hw⟩ := hrest
      rw [hsteps]
      exact ⟨x, w, hx, (lineRun_append _ _ x).trans (except_bind_ok.mpr ⟨y, hrun, hw⟩)⟩
    · have hsteps : stepsOf k ((j, l) :: t) = stepsOf k t := by simp [stepsOf, hj]
      rw [hsteps] at hne ⊢
      obtain ⟨x', w, hx', hw⟩ := ih ht hne
      rw [setInst_other (s := { s with ch := j }) (Ne.symm hj)] at hx'
      exact ⟨x', w, hx', hw⟩

/-- Settles O53: the steps of a trace that runs are a run of the instance, and no run holds seventeen DATA in a row. -/
theorem noTraceOverfillsAFrame : Obligations.NoTraceOverfillsAFrame := by
  intro s t k before rest bytes _ hsteps hlen u hrun
  have hne : stepsOf k t ≠ [] := by
    have hbytes : bytes ≠ [] := List.ne_nil_of_length_pos (by omega)
    simp [hsteps, hbytes]
  obtain ⟨x, y, -, hown⟩ := runTrace_next_lineRun hrun hne
  rw [hsteps] at hown
  exact lineRun_ne_ok_of_overfull hlen x y hown

/-! ### Silence (R71, R99, R104) -/

/-- A step in silence leaves every instance outside the terminal phases as it is, and silence goes on. -/
theorem step_silent_keeps {s : State} {k : Nat} {x : Inst} (hs : s.sched = []) (hx : s.insts[k]? = some x)
    (hst : terminal x.st = false) : ∃ t, step s = .next t ∧ t.sched = [] ∧ t.insts[k]? = some x := by
  obtain ⟨-, hstep⟩ | ⟨j, z, hz, ht, hstep⟩ := step_silent_cases hs
  · exact ⟨s, hstep, hs, hx⟩
  · have hne : k ≠ j := by
      rintro rfl
      cases hx.symm.trans hz
      rw [hst] at ht
      cases ht
    exact ⟨_, hstep, rfl, (setInst_other (s := s.countDraw.takeEdge j []) hne _).trans hx⟩

/-- Settles O41, by induction on the number of steps. -/
theorem stalledInstanceWaitsForEver : Obligations.StalledInstanceWaitsForEver := by
  intro s k x n
  induction n generalizing s with
  | zero => exact fun _ hx _ => ⟨s, rfl, hx⟩
  | succ n ih =>
    intro hs hx hst
    obtain ⟨s', hstep, hs', hx'⟩ := step_silent_keeps hs hx (terminal_false.mpr hst.symm)
    obtain ⟨t, hrun, ht⟩ := ih s' hs' hx' hst
    exact ⟨t, core_run_succ_next.mpr ⟨s', hstep, hrun⟩, ht⟩

/-- Settles O43: the edge, or silence, selects CLOSE in the instance. -/
theorem terminalPhaseLastsOneStep : Obligations.TerminalPhaseLastsOneStep := by
  refine ⟨fun s k pins rest x hs hx ht hrst => ?_, fun s x hs hx ht => ?_⟩
  · rw [step_edge hs hx, edgeInstr_terminal hrst ht]
    exact onInst_of (s := s.takeEdge k rest) hx (stepClose_ok.mpr ⟨ht, rfl⟩)
  · rw [step_silent hs, pendingClose_selected hx ht]
    have hclose := onInst_of (s := s.countDraw.takeEdge s.ch []) hx
      (stepClose_ok (cf := Config.closeFail s.draws).mpr ⟨ht, rfl⟩)
    rw [← hs] at hclose ⊢
    exact hclose

end Sys2Proof.Machine
end

section
/-! PROOFS of the family of the exceptions: the one fault (R82), the priority at an edge (R85, R96), and what decides an
instance's next state (R91). -/

namespace Sys2Proof.Machine

/-! ### The fault DecodeContractViolation (R82) -/

theorem exec_decode_of_length_ne {bytes : List Byte} (h : bytes.length ≠ 16) (s : State) :
    exec (.decode bytes) s = .fault .decodeContractViolation := by
  simp [exec, execDecode, decodeBuffer, Config.frameLen, h]

/-- An edge and a CLOSE in silence are steps of an instance, which raise no fault, and a reader's frame has sixteen bytes. -/
theorem step_ne_fault (s : State) (e : Fault) : step s ≠ .fault e := by
  cases hs : s.sched with
  | nil => obtain ⟨-, h⟩ | ⟨k, x, -, -, h⟩ := step_silent_cases hs <;> simp [h]
  | cons stim rest =>
    cases stim with
    | edge k pins =>
      rw [step_edge_eq_onInst hs]
      exact onInst_ne_fault _ _ e
    | view v f =>
      obtain ⟨r, h⟩ := exec_viewInstr v f (s.takeView rest)
      simp [step_view hs, h]

/-- Settles O7, by the stimulus that the step takes. -/
theorem decodeContractViolationIsAFaultNoStepReaches : Obligations.DecodeContractViolationIsAFaultNoStepReaches :=
  ⟨fun s _ h => exec_decode_of_length_ne h s, fun s => step_ne_fault s _⟩

/-! ### The priority at an edge (R85, R96) -/

/-- The acceptable events by phase and kind code (R45, R72). -/
theorem inReady_kindOfCode {st : Phase} {kind : BitVec 2} :
    inReady st (kindOfCode kind) = true ↔
      st = .closed ∧ kind = 3#2 ∨ st = .awaiting ∧ kind = 0#2 ∨ st = .awaiting ∧ kind = 1#2 ∨
        st = .awaiting ∧ kind = 2#2 := by
  revert kind
  cases st <;> decide

/-- Settles O40: RESET, CLOSE, the four acceptable events by their kind codes, and else no event is acceptable. -/
theorem edgeTakesOneOfFourInPriority : Obligations.EdgeTakesOneOfFourInPriority := by
  intro s k pins rest x hs hx
  have runs {i : Instr} (hi : edgeInstr pins x = some i) : step s = exec i (s.takeEdge k rest) := by
    rw [step_edge hs hx, hi]
  by_cases hrst : pins.rst = true
  · rw [if_pos hrst]
    exact runs (edgeInstr_rst hrst x)
  rw [if_neg hrst]
  rw [Bool.not_eq_true] at hrst
  by_cases hterm : x.st = .decoded ∨ x.st = .shortRead ∨ x.st = .ioError
  · rw [if_pos hterm]
    exact runs (edgeInstr_terminal hrst (terminal_iff.mpr hterm))
  rw [if_neg hterm]
  have ht : terminal x.st = false := Bool.eq_false_iff.mpr (mt terminal_iff.mp hterm)
  have event {kind : BitVec 2} (hv : pins.inValid = true) (hk : pins.inKind = kind)
      (hr : inReady x.st (kindOfCode kind) = true) :
      step s = exec (eventInstr kind pins.inData) (s.takeEdge k rest) := by
    subst hk
    exact runs (edgeInstr_event hrst ht hv hr)
  split_ifs with hopen hdata heos hioerr
  · obtain ⟨hv, hst, hk⟩ := hopen
    exact event hv hk (inReady_openConn.mpr hst)
  · obtain ⟨hv, hst, hk⟩ := hdata
    exact event hv hk (inReady_data.mpr hst)
  · obtain ⟨hv, hst, hk⟩ := heos
    exact event hv hk (inReady_eos.mpr hst)
  · obtain ⟨hv, hst, hk⟩ := hioerr
    exact event hv hk (inReady_ioerr.mpr hst)
  · have hnone : (pins.inValid && inReady x.st (kindOfCode pins.inKind)) = false := by
      refine Bool.eq_false_iff.mpr fun h => ?_
      obtain ⟨hv, hr⟩ := Bool.and_eq_true_iff.mp h
      obtain hacc | hacc | hacc | hacc := inReady_kindOfCode.mp hr
      · exact hopen ⟨hv, hacc⟩
      · exact hdata ⟨hv, hacc⟩
      · exact heos ⟨hv, hacc⟩
      · exact hioerr ⟨hv, hacc⟩
    rw [step_edge hs hx, edgeInstr_none hrst ht hnone]
    rfl

/-! ### What decides an instance's next state (R91) -/

/-- Settles O50: at an edge the instance takes `edgeNext` of its own pins and state, in either machine. -/
theorem ownStateAndPinsDecideTheNextState : Obligations.OwnStateAndPinsDecideTheNextState := by
  intro s s' t k pins rest rest' hs hs' hown h
  obtain ⟨x, y, hx, hy, rfl⟩ := (step_edge_next_iff hs).mp h
  have hx' : s'.insts[k]? = some x := hown.symm.trans hx
  refine ⟨_, (step_edge_next_iff hs').mpr ⟨x, y, hx', hy, rfl⟩, ?_⟩
  calc ((s'.takeEdge k rest').setInst y).insts[k]?
      = some y := setInst_selected (s := s'.takeEdge k rest') hx' y
    _ = ((s.takeEdge k rest).setInst y).insts[k]? := (setInst_selected (s := s.takeEdge k rest) hx y).symm

end Sys2Proof.Machine
end

section
/-! PROOFS of the family of reset and hazards: RESET (R94), progress (R96), the close result pin (R101), and how silence
leaves every terminal phase (R104). -/

namespace Sys2Proof.Machine

/-! ### RESET (R94) -/

/-- Settles O2: RESET leaves the same cleared instance in CLOSED whatever the instance was. -/
theorem resetClearsFromEveryState : Obligations.ResetClearsFromEveryState := by
  intro s x hx
  exact ⟨closedInst, onInst_of hx (stepReset_ok.mpr rfl), rfl, rfl, memByte_memClear, rfl⟩

/-! ### Progress (R96) -/

/-- The step that an edge selects is enabled in a legal instance, whatever the pins (R85, R93). -/
theorem basicStep_of_edgeBasic {pins : Pins} {x : Inst} {b : Basic} (hx : x.Inv) (h : edgeBasic pins x = some b) :
    ∃ y, basicStep b x = .ok y := by
  unfold edgeBasic at h
  split_ifs at h with hrst ht hev
  · cases h
    exact ⟨_, stepReset_ok (x := x).mpr rfl⟩
  · cases h
    exact ⟨_, stepClose_ok.mpr ⟨ht, rfl⟩⟩
  · cases h
    obtain ⟨-, hready⟩ := Bool.and_eq_true_iff.mp hev
    exact basicStep_eventBasic hx hready pins.inData

/-- A legal instance has a next value at every edge, whatever the pins. -/
theorem edgeNext_of_inv {x : Inst} (hx : x.Inv) (pins : Pins) : ∃ y, edgeNext pins x = .ok y := by
  unfold edgeNext
  cases hb : edgeBasic pins x with
  | none => exact ⟨x, rfl⟩
  | some b => exact basicStep_of_edgeBasic hx hb

/-- Settles O6, by the stimulus that the step takes. -/
theorem legalStateAlwaysSteps : Obligations.LegalStateAlwaysSteps := by
  intro s ⟨hall, _⟩ hhead
  cases hs : s.sched with
  | nil => obtain ⟨-, h⟩ | ⟨k, x, -, -, h⟩ := step_silent_cases hs <;> exact ⟨_, h⟩
  | cons stim rest =>
    cases stim with
    | edge k pins =>
      have hk : k < s.insts.length := hhead k pins rest hs
      obtain ⟨y, hy⟩ := edgeNext_of_inv (hall s.insts[k] (List.getElem_mem hk)) pins
      exact ⟨_, (step_edge_next_iff hs).mpr ⟨_, y, List.getElem?_eq_getElem hk, hy, rfl⟩⟩
    | view v f =>
      obtain ⟨r, h⟩ := exec_viewInstr v f (s.takeView rest)
      exact ⟨_, (step_view hs).trans h⟩

/-! ### The close result pin (R101) -/

/-- An edge that takes no CLOSE selects the same instruction whatever is on close_fail. -/
theorem edgeInstr_ignores_closeFail {pins : Pins} {x : Inst} (cf : Bool)
    (h : pins.rst = true ∨ terminal x.st = false) :
    edgeInstr { pins with closeFail := cf } x = edgeInstr pins x := by
  obtain hrst | ht := h
  · exact (edgeInstr_rst (pins := { pins with closeFail := cf }) hrst x).trans (edgeInstr_rst hrst x).symm
  · simp only [edgeInstr, ht, Bool.false_eq_true, if_false]

/-- Settles O44: the edge selects the same instruction whatever is on close_fail. -/
theorem closeFailIsIgnoredElsewhere : Obligations.CloseFailIsIgnoredElsewhere := by
  intro s k pins rest x cf hx h
  refine step_edge_congr fun z hz => edgeInstr_ignores_closeFail cf ?_
  cases hx.symm.trans hz
  exact h

/-! ### Silence closes every terminal phase (R104) -/

/-- How many instances are in a terminal phase. -/
def terminalCount (s : State) : Nat := s.insts.countP fun x => terminal x.st

theorem terminalCount_eq_zero {s : State} : terminalCount s = 0 ↔ ∀ x ∈ s.insts, terminal x.st = false := by
  simp only [terminalCount, List.countP_eq_zero, Bool.not_eq_true]

/-- One instance fewer is in a terminal phase when the selected one leaves its own. -/
theorem terminalCount_setInst {s : State} {x y : Inst} (hx : s.insts[s.ch]? = some x) (ht : terminal x.st = true)
    (hy : terminal y.st = false) : terminalCount (s.setInst y) = terminalCount s - 1 := by
  obtain ⟨hlt, rfl⟩ := List.getElem?_eq_some_iff.mp hx
  simp [terminalCount, List.countP_set, hlt, ht, hy]

/-- In `t` every instance that is in a terminal phase in `s` is a cleared one in CLOSED, and every other is as in `s`. -/
def TerminalClosed (s t : State) : Prop :=
  ∀ (k : Nat) (x : Inst), s.insts[k]? = some x →
    ∃ y, t.insts[k]? = some y ∧
      (if terminal x.st = true then y.st = .closed ∧ y.cnt.val = 0 ∧ y.buf = [] else y = x)

theorem terminalClosed_refl {s : State} (h : ∀ x ∈ s.insts, terminal x.st = false) : TerminalClosed s s :=
  fun _ x hx => ⟨x, hx, by rw [if_neg (Bool.eq_false_iff.mp (h x (List.mem_of_getElem? hx)))]⟩

/-- What closes every terminal phase after one instance took its CLOSE closes every terminal phase. -/
theorem TerminalClosed.of_close {s t : State} {x : Inst} {cf : Bool} (hx : s.insts[s.ch]? = some x)
    (hterm : terminal x.st = true)
    (h : TerminalClosed (s.setInst { buf := memClear, cnt := 0, st := .closed, closeErr := cf }) t) :
    TerminalClosed s t := by
  intro k z hz
  by_cases hk : k = s.ch
  · subst hk
    cases hx.symm.trans hz
    obtain ⟨y, hy, rfl⟩ := h s.ch _ (setInst_selected hx _)
    exact ⟨_, hy, by rw [if_pos hterm]; exact ⟨rfl, rfl, rfl⟩⟩
  · exact h k z ((setInst_other hk _).trans hz)

/-- In silence as many steps as there are instances in a terminal phase close all of these, and then the state holds: each
step closes one. -/
theorem run_silent_closes {n : Nat} {s : State} (hs : s.sched = []) (hn : terminalCount s = n) :
    ∃ t, Sys2Proof.core.run n s = .next t ∧ TerminalClosed s t ∧ step t = .next t := by
  induction n generalizing s with
  | zero =>
    have hnone := terminalCount_eq_zero.mp hn
    obtain ⟨-, hstep⟩ | ⟨k, x, hx, ht, -⟩ := step_silent_cases hs
    · exact ⟨s, rfl, terminalClosed_refl hnone, hstep⟩
    · simp [hnone x (List.mem_of_getElem? hx)] at ht
  | succ n ih =>
    obtain ⟨hnone, -⟩ | ⟨k, x, hx, ht, hstep⟩ := step_silent_cases hs
    · simp [terminalCount_eq_zero.mpr hnone] at hn
    · have hx' : (s.countDraw.takeEdge k []).insts[(s.countDraw.takeEdge k []).ch]? = some x := hx
      have hcount := terminalCount_setInst
        (y := { buf := memClear, cnt := 0, st := .closed, closeErr := Config.closeFail s.draws }) hx' ht rfl
      obtain ⟨t, hrun, hclosed, hhold⟩ := ih rfl (hcount.trans (Nat.sub_eq_of_eq_add hn))
      exact ⟨t, core_run_succ_next.mpr ⟨_, hstep, hrun⟩,
        TerminalClosed.of_close (s := s.countDraw.takeEdge k []) hx' ht hclosed, hhold⟩

/-- Settles O42, by induction on the number of instances in a terminal phase. -/
theorem silenceClosesEveryTerminalPhase : Obligations.SilenceClosesEveryTerminalPhase :=
  fun _ hs => run_silent_closes hs rfl

end Sys2Proof.Machine
end
